-- ==== Sys2Proof/Word.lean ====
section
/-! DEFINITION. The word types of the chip8-rust CORE (00_scope.md R5, R6): all quantities are unsigned. -/

namespace Sys2Proof

/-- A data register, an immediate or a memory byte: `XLEN` = 8 bits. -/
abbrev Byte := BitVec 8

/-- An instruction word, the program counter or the address register: 16 bits. -/
abbrev Word := BitVec 16

/-- A register index or a sprite height, taken from one nibble of the word. -/
abbrev Nibble := BitVec 4

/-- The 12-bit address operand `nnn`. -/
abbrev Addr12 := BitVec 12

end Sys2Proof
end

