-- ==== Sys2Proof/Syntax.lean ====
section
/-! DEFINITION. The instruction type (30_encoding.md R74): one constructor per row of the opcode table, operands of exact
width and in the order of R74. -/

namespace Sys2Proof

/-- The 34 variants of 30_encoding.md R74. `x`, `y` are register indices, `kk` an 8-bit immediate, `nnn` a 12-bit
address and `n` the 4-bit sprite height. -/
inductive Instr where
  | sys (nnn : Addr12)
  | clr
  | rts
  | jump (nnn : Addr12)
  | call (nnn : Addr12)
  | ske (x : Nibble) (kk : Byte)
  | skne (x : Nibble) (kk : Byte)
  | skre (x y : Nibble)
  | load (x : Nibble) (kk : Byte)
  | add (x : Nibble) (kk : Byte)
  | move (x y : Nibble)
  | or (x y : Nibble)
  | and (x y : Nibble)
  | xor (x y : Nibble)
  | addr (x y : Nibble)
  | sub (x y : Nibble)
  | shr (x y : Nibble)
  | shl (x y : Nibble)
  | skrne (x y : Nibble)
  | loadI (nnn : Addr12)
  | jumpI (nnn : Addr12)
  | rand (x : Nibble) (kk : Byte)
  | draw (x y n : Nibble)
  | skpr (x : Nibble)
  | skup (x : Nibble)
  | moved (x : Nibble)
  | keyd (x : Nibble)
  | loadd (x : Nibble)
  | loads (x : Nibble)
  | addi (x : Nibble)
  | ldspr (x : Nibble)
  | bcd (x : Nibble)
  | stor (x : Nibble)
  | read (x : Nibble)
deriving DecidableEq, Repr

end Sys2Proof
end

