-- ==== Sys2Proof/WellFormed.lean ====
section
/-! DEFINITION. Well-formed instructions: the values the decoder can produce (30_encoding.md R86). -/

namespace Sys2Proof

/-- Every variant value is well formed but `Sys(0x0E0)` and `Sys(0x0EE)`, whose words are those of `Clr` and `Rts`
(30_encoding.md R86; log 18). The operand types leave nothing else to check (R74). -/
def Instr.wellFormed : Instr → Bool
  | .sys nnn => nnn != 0x0E0#12 && nnn != 0x0EE#12
  | .clr => true
  | .rts => true
  | .jump _ => true
  | .call _ => true
  | .ske _ _ => true
  | .skne _ _ => true
  | .skre _ _ => true
  | .load _ _ => true
  | .add _ _ => true
  | .move _ _ => true
  | .or _ _ => true
  | .and _ _ => true
  | .xor _ _ => true
  | .addr _ _ => true
  | .sub _ _ => true
  | .shr _ _ => true
  | .shl _ _ => true
  | .skrne _ _ => true
  | .loadI _ => true
  | .jumpI _ => true
  | .rand _ _ => true
  | .draw _ _ _ => true
  | .skpr _ => true
  | .skup _ => true
  | .moved _ => true
  | .keyd _ => true
  | .loadd _ => true
  | .loads _ => true
  | .addi _ => true
  | .ldspr _ => true
  | .bcd _ => true
  | .stor _ => true
  | .read _ => true

end Sys2Proof
end

