-- ==== Sys2Proof/Decode.lean ====
section
/-! DEFINITION. The Instruction Codec (30_encoding.md R70 to R86): fields, decoder, encoder, both pure. The decoder is
total on the 65536 words and rejects a word by name. -/

namespace Sys2Proof

/-- `DecodeError(w)` (30_encoding.md R83): the word is kept for diagnostics. -/
inductive DecodeError where
  /-- "Any unrecognized suffix within a dispatched group is a decode error carrying the offending word" (R83). -/
  | unrecognizedSuffix (w : Word)
deriving DecidableEq, Repr

/-! Fields of a word (30_encoding.md R71). -/

/-- `op = w[15:12]`. -/
def fieldOp (w : Word) : Nibble := w.extractLsb' 12 4

/-- `x = w[11:8]`. -/
def fieldX (w : Word) : Nibble := w.extractLsb' 8 4

/-- `y = w[7:4]`. -/
def fieldY (w : Word) : Nibble := w.extractLsb' 4 4

/-- `n = w[3:0]`. -/
def fieldN (w : Word) : Nibble := w.extractLsb' 0 4

/-- `kk = w[7:0]`. -/
def fieldKK (w : Word) : Byte := w.extractLsb' 0 8

/-- `nnn = w[11:0]`. -/
def fieldNNN (w : Word) : Addr12 := w.extractLsb' 0 12

/-! The decoder (30_encoding.md R75, R76). -/

/-- Group 0x0: never a decode error (30_encoding.md R77). -/
def decodeGroup0 (w : Word) : Instr :=
  if w = 0x00E0#16 then .clr
  else if w = 0x00EE#16 then .rts
  else .sys (fieldNNN w)

/-- Group 0x8: suffixes 0 to 6 and E (30_encoding.md R79). -/
def decodeGroup8 (w : Word) : Except DecodeError Instr :=
  match (fieldN w).toNat with
  | 0x0 => .ok (.move (fieldX w) (fieldY w))
  | 0x1 => .ok (.or (fieldX w) (fieldY w))
  | 0x2 => .ok (.and (fieldX w) (fieldY w))
  | 0x3 => .ok (.xor (fieldX w) (fieldY w))
  | 0x4 => .ok (.addr (fieldX w) (fieldY w))
  | 0x5 => .ok (.sub (fieldX w) (fieldY w))
  | 0x6 => .ok (.shr (fieldX w) (fieldY w))
  | 0xE => .ok (.shl (fieldX w) (fieldY w))
  | _ => .error (.unrecognizedSuffix w)

/-- Group 0xE: suffixes 0x9E and 0xA1 (30_encoding.md R80). -/
def decodeGroupE (w : Word) : Except DecodeError Instr :=
  match (fieldKK w).toNat with
  | 0x9E => .ok (.skpr (fieldX w))
  | 0xA1 => .ok (.skup (fieldX w))
  | _ => .error (.unrecognizedSuffix w)

/-- Group 0xF: nine suffixes (30_encoding.md R81). -/
def decodeGroupF (w : Word) : Except DecodeError Instr :=
  match (fieldKK w).toNat with
  | 0x07 => .ok (.moved (fieldX w))
  | 0x0A => .ok (.keyd (fieldX w))
  | 0x15 => .ok (.loadd (fieldX w))
  | 0x18 => .ok (.loads (fieldX w))
  | 0x1E => .ok (.addi (fieldX w))
  | 0x29 => .ok (.ldspr (fieldX w))
  | 0x33 => .ok (.bcd (fieldX w))
  | 0x55 => .ok (.stor (fieldX w))
  | 0x65 => .ok (.read (fieldX w))
  | _ => .error (.unrecognizedSuffix w)

/-- `decode` (30_encoding.md R75). `fieldOp w` is below 16, so the last arm is group 0xF. -/
def decode (w : Word) : Except DecodeError Instr :=
  match (fieldOp w).toNat with
  | 0x0 => .ok (decodeGroup0 w)
  | 0x1 => .ok (.jump (fieldNNN w))
  | 0x2 => .ok (.call (fieldNNN w))
  | 0x3 => .ok (.ske (fieldX w) (fieldKK w))
  | 0x4 => .ok (.skne (fieldX w) (fieldKK w))
  | 0x5 => if fieldN w = 0x0#4 then .ok (.skre (fieldX w) (fieldY w)) else .error (.unrecognizedSuffix w)
  | 0x6 => .ok (.load (fieldX w) (fieldKK w))
  | 0x7 => .ok (.add (fieldX w) (fieldKK w))
  | 0x8 => decodeGroup8 w
  | 0x9 => if fieldN w = 0x0#4 then .ok (.skrne (fieldX w) (fieldY w)) else .error (.unrecognizedSuffix w)
  | 0xA => .ok (.loadI (fieldNNN w))
  | 0xB => .ok (.jumpI (fieldNNN w))
  | 0xC => .ok (.rand (fieldX w) (fieldKK w))
  | 0xD => .ok (.draw (fieldX w) (fieldY w) (fieldN w))
  | 0xE => decodeGroupE w
  | _ => decodeGroupF w

/-! The encoder (30_encoding.md R84). -/

/-- Format `A`: group and 12-bit address (30_encoding.md R72). -/
def wordA (op : Nibble) (nnn : Addr12) : Word := op ++ nnn

/-- Format `XK`: group, register, 8-bit immediate (30_encoding.md R72). Format `X` is the same with its suffix in the
low byte. -/
def wordXK (op x : Nibble) (kk : Byte) : Word := op ++ x ++ kk

/-- Format `XYN`: group, two registers, short value (30_encoding.md R72). Format `XY` is the same with its suffix in the
low nibble. -/
def wordXYN (op x y n : Nibble) : Word := op ++ x ++ y ++ n

/-- `encode` (30_encoding.md R84). -/
def encode : Instr → Word
  | .sys nnn => wordA 0x0 nnn
  | .clr => 0x00E0
  | .rts => 0x00EE
  | .jump nnn => wordA 0x1 nnn
  | .call nnn => wordA 0x2 nnn
  | .ske x kk => wordXK 0x3 x kk
  | .skne x kk => wordXK 0x4 x kk
  | .skre x y => wordXYN 0x5 x y 0x0
  | .load x kk => wordXK 0x6 x kk
  | .add x kk => wordXK 0x7 x kk
  | .move x y => wordXYN 0x8 x y 0x0
  | .or x y => wordXYN 0x8 x y 0x1
  | .and x y => wordXYN 0x8 x y 0x2
  | .xor x y => wordXYN 0x8 x y 0x3
  | .addr x y => wordXYN 0x8 x y 0x4
  | .sub x y => wordXYN 0x8 x y 0x5
  | .shr x y => wordXYN 0x8 x y 0x6
  | .shl x y => wordXYN 0x8 x y 0xE
  | .skrne x y => wordXYN 0x9 x y 0x0
  | .loadI nnn => wordA 0xA nnn
  | .jumpI nnn => wordA 0xB nnn
  | .rand x kk => wordXK 0xC x kk
  | .draw x y n => wordXYN 0xD x y n
  | .skpr x => wordXK 0xE x 0x9E
  | .skup x => wordXK 0xE x 0xA1
  | .moved x => wordXK 0xF x 0x07
  | .keyd x => wordXK 0xF x 0x0A
  | .loadd x => wordXK 0xF x 0x15
  | .loads x => wordXK 0xF x 0x18
  | .addi x => wordXK 0xF x 0x1E
  | .ldspr x => wordXK 0xF x 0x29
  | .bcd x => wordXK 0xF x 0x33
  | .stor x => wordXK 0xF x 0x55
  | .read x => wordXK 0xF x 0x65

/-! Words and bytes (20_memory.md R51). -/

/-- The word of two consecutive bytes, big-endian: the byte at the lower address is `w[15:8]`. -/
def wordOfBytes (hi lo : Byte) : Word := hi ++ lo

/-- The bytes of a word at ascending addresses. -/
def bytesOfWord (w : Word) : List Byte := [w.extractLsb' 8 8, w.extractLsb' 0 8]

/-- The instruction word whose low `nbits` bits are those of `w` and whose other bits are 0. -/
def tableWord (nbits w : Nat) : Word := BitVec.ofNat 16 (w % 2 ^ nbits)

/-- What the decoder reads from the instruction whose bits are `w`, numbered as the opcode table numbers them. The bytes
are laid out big-endian and read back as a fetch reads them. -/
def decodeTableWord (nbits w : Nat) : Option Instr :=
  match bytesOfWord (tableWord nbits w) with
  | [hi, lo] => (decode (wordOfBytes hi lo)).toOption
  | _ => none

end Sys2Proof
end

