-- ==== Sys2Proof/Config.lean ====
section
/-! DEFINITION. The implementation parameters (00_scope.md R5) and the free values. What the spec fixes has a body;
what it leaves open (`FLAG_ORDER`, `MEMX_I_INCREMENT`, the time of a step, the random byte) is opaque: no proof can see
a value of it. -/

namespace Sys2Proof

/-- The two values of the OPEN parameter `FLAG_ORDER` (44_alu.md R159). -/
inductive FlagOrder where
  /-- The flag is written after the result, so register 15 ends with the flag. -/
  | flagLast
  /-- The flag is written before the result, so register 15 ends with the result. -/
  | flagFirst
deriving DecidableEq, Repr, Inhabited

namespace Config

/-- `MEM_SIZE` (R5, decision D1). -/
abbrev memSize : Nat := 4096

/-- `LOAD_ADDR`, also the reset value of `pc` (R5, decision D2). -/
abbrev loadAddr : Nat := 0x200

/-- `FONT_BASE` (R5, decision D4). -/
abbrev fontBase : Nat := 0

/-- `GLYPH_BYTES` (R5, decision D4). -/
abbrev glyphBytes : Nat := 5

/-- `NGLYPHS` (R5). -/
abbrev nGlyphs : Nat := 16

/-- `FB_W`, columns of the framebuffer (R5, decision D3). -/
abbrev fbW : Nat := 64

/-- `FB_H`, rows of the framebuffer (R5, decision D3). -/
abbrev fbH : Nat := 32

/-- `NREGS` (R5). -/
abbrev nRegs : Nat := 16

/-- `NKEYS` (R5). -/
abbrev nKeys : Nat := 16

/-- `n` milliseconds. Points in real time and durations are numbers of nanoseconds (10_state.md R29: "unit milliseconds
or finer"; log 1). -/
def milliseconds (n : Nat) : Nat := n * 1000000

/-- One second, in nanoseconds. -/
def second : Nat := milliseconds 1000

/-- `TICK_MS` = 16 milliseconds (R5; 40_step_cycle.md R102). -/
def tickInterval : Nat := milliseconds 16

/-- Glyphs 0 to 7 of `FONT` (10_state.md R33). -/
def fontLow : List Byte :=
  [0xF0, 0x90, 0x90, 0x90, 0xF0] ++ [0x20, 0x60, 0x20, 0x20, 0x70] ++
  [0xF0, 0x10, 0xF0, 0x80, 0xF0] ++ [0xF0, 0x10, 0xF0, 0x10, 0xF0] ++
  [0x90, 0x90, 0xF0, 0x10, 0x10] ++ [0xF0, 0x80, 0xF0, 0x10, 0xF0] ++
  [0xF0, 0x80, 0xF0, 0x90, 0xF0] ++ [0xF0, 0x10, 0x20, 0x40, 0x40]

/-- Glyphs 8 to F of `FONT` (10_state.md R33). -/
def fontHigh : List Byte :=
  [0xF0, 0x90, 0xF0, 0x90, 0xF0] ++ [0xF0, 0x90, 0xF0, 0x10, 0xF0] ++
  [0xF0, 0x90, 0xF0, 0x90, 0x90] ++ [0xE0, 0x90, 0xE0, 0x90, 0xE0] ++
  [0xF0, 0x80, 0x80, 0x80, 0xF0] ++ [0xE0, 0x90, 0x90, 0x90, 0xE0] ++
  [0xF0, 0x80, 0xF0, 0x80, 0xF0] ++ [0xF0, 0x80, 0xF0, 0x80, 0x80]

/-- `FONT`, the `NGLYPHS * GLYPH_BYTES` = 80 font bytes (10_state.md R33). -/
def font : List Byte := fontLow ++ fontHigh

/-- `FLAG_ORDER`, OPEN (44_alu.md R159; log 3): a value of the implementation, left free. -/
opaque flagOrder : FlagOrder

/-- `MEMX_I_INCREMENT`, OPEN (48_timers_index_memory.md R206; log 4): a value of the implementation, left free. -/
opaque memxIIncrement : Bool

/-- FREE VALUE (log 1): the time that passes before the `k`-th observation of the clock. It is a natural number, so the
`now` inputs are non-decreasing, and otherwise anything (40_step_cycle.md R100). -/
opaque elapsed : Nat → Nat

/-- FREE VALUE (log 2): what the `k`-th `draw8()` returns (45_immediate_random.md R173). -/
opaque randomByte : Nat → Byte

end Config

end Sys2Proof
end

