-- ==== Sys2Proof/Machine/State.lean ====
section
/-! DEFINITION. The state of the chip8-rust CORE (10_state.md R20 to R45) as plain data, the ways a step can end, and the
state right after creation and reset. -/

namespace Sys2Proof.Machine

/-- The errors the source itself defines (60_exceptions.md R220, E1 to E4). A step that raises one returns it to the
driver and leaves the state of R226. -/
inductive EngineError where
  /-- E1: the fetched word `w` does not decode. -/
  | decodeError (w : Word)
  /-- E2: `Rts` with an empty call stack. -/
  | returnFromEmptyStack
  /-- E3: `Ldspr` with the register value `g` above 15. -/
  | spriteIndexOutOfRange (g : Byte)
  /-- E4: `Sys(nnn)` with `nnn` not 0. -/
  | unimplementedSysCall (nnn : Addr12)
deriving DecidableEq, Repr

/-- What the last step returned: an outcome (10_state.md R41) or an error (R42). -/
inductive StepResult where
  /-- `Continue`: "continue, no redraw". -/
  | cont
  /-- `ContinueRedraw`: "continue, redraw occurred". -/
  | continueRedraw
  /-- `SelfLoop`: "self-loop detected". -/
  | selfLoop
  /-- `Halted`. -/
  | halted
  /-- An error of the source. -/
  | error (e : EngineError)
deriving DecidableEq, Repr

/-- `FB_H` rows, counted from the top, of `FB_W` pixels, counted from the left (10_state.md R34). -/
abbrev Framebuffer := Vector (Vector Bool Config.fbW) Config.fbH

/-- The key array, `true` = pressed (10_state.md R35). -/
abbrev KeyState := Vector Bool Config.nKeys

/-- Every piece of state of 10_state.md R45, and after `rom` the model's own fields. -/
structure State where
  /-- `V[0] .. V[15]`; index 15 is the flag register (R20, R21). -/
  v : Vector Byte Config.nRegs
  /-- The address register `I` (R22). -/
  i : Word
  /-- The program counter (R23, R24). -/
  pc : Word
  /-- The call stack, last pushed first (R26; log 13). -/
  stack : List Word
  /-- The delay counter `DT` (R28). -/
  dt : Byte
  /-- Memory (R31): the cells that differ from the image of an empty ROM, at rising addresses (log 10). -/
  mem : List Host.Cell
  /-- The framebuffer `FB` (R34). -/
  fb : Framebuffer
  /-- The key state `KEY`, written by the Host (R35). -/
  key : KeyState
  /-- The pause flag, written by the Host (R36). -/
  paused : Bool
  /-- `last_tick` (R29). -/
  lastTick : Nat
  /-- The rate controller's `boundary` (R38). -/
  boundary : Nat
  /-- The ROM bytes "kept so that `reset` can reload them" (70_reset_and_hazards.md R250; log 11). -/
  rom : List Byte
  /-- MODEL's own (log 1): the latest `now` observed. -/
  clock : Nat
  /-- MODEL's own (log 1): how often the clock was observed. -/
  clockReads : Nat
  /-- MODEL's own (log 2): how often `draw8()` was called. -/
  randDraws : Nat
  /-- MODEL's own (log 8): the output of the last step. -/
  result : StepResult
deriving DecidableEq, Repr

/-- The spec's two model faults (60_exceptions.md R221, E5 and E6). Each carries the state the failing step leaves
(R226): the delay tick is kept, the execute phase has no effect. -/
inductive Fault where
  /-- E5, raised by the fetch, `Draw`, `Bcd`, `Stor` and `Read` for an access that does not lie inside memory; `addr` is
  its first address (20_memory.md R56). Safe: the machine stops where the source gives the access no meaning. -/
  | memoryOutOfRange (addr : Word) (after : State)
  /-- E6, raised by `Skpr` and `Skup` for a key code `k` above 15 (47_keys.md R194). Safe: the machine stops where the
  source gives the access no meaning. -/
  | keyIndexOutOfRange (k : Byte) (after : State)
deriving DecidableEq, Repr

/-- What the model declines to do. -/
inductive Refusal where
  /-- Raised by `exec` for an instruction that has no meaning yet; no arm raises it now. Safe: nothing is claimed of it. -/
  | notModelled (mnemonic : String)
  /-- Raised by `create` for a ROM of `length` bytes that does not fit (70_reset_and_hazards.md R255). Safe: the spec
  has a model refuse the launch. -/
  | romTooLong (length : Nat)
  /-- Raised by `pace` for `RATE` = 0 (60_exceptions.md R235 c). Safe: the spec has a model refuse it. -/
  | rateNotPositive
deriving DecidableEq, Repr

/-- How an instruction or a step ends. -/
abbrev Ending := Host.Outcome State Fault Refusal

/-- The machine right after creation from the empty ROM and after reset (10_state.md R45; an empty ROM is legal, R255; log 9).
`lastTick` and `boundary` are the time of creation, which is taken as time 0 (log 12). -/
def State.reset : State where
  v := Vector.replicate Config.nRegs 0x00#8
  i := 0x0000#16
  pc := BitVec.ofNat 16 Config.loadAddr
  stack := []
  dt := 0x00#8
  mem := []
  fb := Vector.replicate Config.fbH (Vector.replicate Config.fbW false)
  key := Vector.replicate Config.nKeys false
  paused := false
  lastTick := 0
  boundary := 0
  rom := []
  clock := 0
  clockReads := 0
  randDraws := 0
  result := .cont

end Sys2Proof.Machine
end

