-- ==== Sys2Proof/Machine/Ops.lean ====
section
/-! DEFINITION. The named operations over registers, memory, call stack, framebuffer and keys, and the ways a step ends:
advance, skip, transfer, hold, halt, taking an error. -/

namespace Sys2Proof.Machine

/-! Memory (20_memory.md). -/

/-- What an address not listed in the state's memory holds: the image of the empty ROM, that is the font at `FONT_BASE`
and zero elsewhere (10_state.md R32, R33; log 10). -/
def Memory.unlisted (a : Nat) : Byte :=
  if a < Config.fontBase then 0x00#8 else Config.font.getD (a - Config.fontBase) 0x00#8

/-- The byte at address `a`. -/
def Memory.read : List Host.Cell → Nat → Byte
  | [], a => Memory.unlisted a
  | (a', b) :: m, a => if a = a' then b else Memory.read m a

/-- Puts a cell before memory whose addresses are all above it; a cell that says what is unlisted is left out. -/
def Memory.consCell (a : Nat) (b : Byte) (m : List Host.Cell) : List Host.Cell :=
  if b = Memory.unlisted a then m else (a, b) :: m

/-- Memory with the byte at address `a` replaced, in canonical form again. -/
def Memory.write : List Host.Cell → Nat → Byte → List Host.Cell
  | [], a, b => Memory.consCell a b []
  | (a', b') :: m, a, b =>
    if a < a' then Memory.consCell a b ((a', b') :: m)
    else if a = a' then Memory.consCell a b m
    else (a', b') :: Memory.write m a b

/-- Memory with the bytes at `a, a+1, ...` replaced, in ascending order. -/
def Memory.writeBytes (m : List Host.Cell) (a : Nat) : List Byte → List Host.Cell
  | [] => m
  | b :: bs => Memory.writeBytes (Memory.write m a b) (a + 1) bs

/-- The image after create and reset: font, ROM at `LOAD_ADDR`, zeros (10_state.md R32). -/
def Memory.image (rom : List Byte) : List Host.Cell := Memory.writeBytes [] Config.loadAddr rom

/-- The canonical form, for addresses from `lo` on: strictly rising, inside memory, no cell that says what is unlisted. -/
def Memory.wfFrom (lo : Nat) : List Host.Cell → Bool
  | [] => true
  | (a, b) :: m => lo ≤ a && a < Config.memSize && b != Memory.unlisted a && Memory.wfFrom (a + 1) m

/-- The canonical form of memory. -/
def Memory.wf (m : List Host.Cell) : Bool := Memory.wfFrom 0 m

/-- The byte the state holds at address `a`. -/
def State.readByte (s : State) (a : Nat) : Byte := Memory.read s.mem a

/-- The `n` bytes from address `a` on. -/
def State.readBytes (s : State) (a n : Nat) : List Byte := (List.range n).map fun k => s.readByte (a + k)

/-- The range check of 20_memory.md R56: all `n` bytes from `a` on lie inside memory. -/
def inMemory (a n : Nat) : Bool := a + n ≤ Config.memSize

/-- `MemRead(a, n)` (00_scope.md R7): nothing where the range leaves memory. -/
def State.memRead? (s : State) (a n : Nat) : Option (List Byte) :=
  if inMemory a n then some (s.readBytes a n) else none

/-- The byte writes of one instruction (00_scope.md R7, `MemWrite`): the whole range is checked before any write
(20_memory.md R56); nothing where it leaves memory. -/
def State.memWrite? (s : State) (a : Nat) (bs : List Byte) : Option State :=
  if inMemory a bs.length then some { s with mem := Memory.writeBytes s.mem a bs } else none

/-! Data registers (10_state.md R20, R21). -/

/-- The index of the flag register, `FLAG` = 15. -/
def flagReg : Nibble := 0xF#4

/-- Read `V[x]`. -/
def State.reg (s : State) (x : Nibble) : Byte := s.v[x.toNat]'x.isLt

/-- Write `V[x]`. -/
def State.setReg (s : State) (x : Nibble) (b : Byte) : State := { s with v := s.v.set x.toNat b x.isLt }

/-- The contents of `V[0] .. V[n-1]`. -/
def State.regList (s : State) (n : Nat) : List Byte := (List.range n).map fun k => s.reg (BitVec.ofNat 4 k)

/-- Write bytes to `V[k], V[k+1], ...`, in ascending order. -/
def State.fillRegs (s : State) (k : Nat) : List Byte → State
  | [] => s
  | b :: bs => (s.setReg (BitVec.ofNat 4 k) b).fillRegs (k + 1) bs

/-! Address register, delay counter, call stack (10_state.md R22, R26, R28). -/

/-- `I <- w`. -/
def State.setI (s : State) (w : Word) : State := { s with i := w }

/-- `DT <- b`. -/
def State.setDt (s : State) (b : Byte) : State := { s with dt := b }

/-- `push(w)`. -/
def State.push (s : State) (w : Word) : State := { s with stack := w :: s.stack }

/-- `pop()`: the popped value and the state without it; nothing on the empty stack. -/
def State.pop? (s : State) : Option (Word × State) :=
  match s.stack with
  | [] => none
  | w :: rest => some (w, { s with stack := rest })

/-- `draw8()` (00_scope.md R7): a free value, fresh at each call, and the state that counts the call (log 2). -/
def State.draw8 (s : State) : Byte × State := (Config.randomByte s.randDraws, { s with randDraws := s.randDraws + 1 })

/-! Framebuffer and keys (10_state.md R34, R35). -/

/-- The pixel at row `r` and column `c`. -/
def pixel (fb : Framebuffer) (r : Fin Config.fbH) (c : Fin Config.fbW) : Bool := fb[r][c]

/-- The framebuffer with one pixel inverted: exclusive or with 1. -/
def togglePixel (fb : Framebuffer) (r : Fin Config.fbH) (c : Fin Config.fbW) : Framebuffer :=
  fb.set r (fb[r].set c (!pixel fb r c))

/-- The framebuffer with every pixel `false`. -/
def blankScreen : Framebuffer := Vector.replicate Config.fbH (Vector.replicate Config.fbW false)

/-- The state of the key with code `k`; nothing above 15. -/
def State.keyAt? (s : State) (k : Nat) : Option Bool := s.key[k]?

/-- The least code of a pressed key (47_keys.md R192). -/
def State.leastKey? (s : State) : Option Nat := (List.range Config.nKeys).find? fun k => s.keyAt? k == some true

/-! How an instruction ends: the program counter and the result (40_step_cycle.md R105, R106). Sums on `pc` are modulo
65536 (10_state.md R25). -/

/-- `pc <- pc + 2` with outcome `r`. -/
def advanceWith (r : StepResult) (s : State) : Ending := .next { s with pc := s.pc + 2#16, result := r }

/-- `pc <- pc + 2`, outcome `Continue`. -/
def advance (s : State) : Ending := advanceWith .cont s

/-- `pc <- pc + 2`, outcome `ContinueRedraw`. -/
def advanceRedraw (s : State) : Ending := advanceWith .continueRedraw s

/-- `pc <- pc + 4` where the condition holds, else `pc <- pc + 2`; outcome `Continue` (43_skips.md R140). -/
def skipIf (c : Bool) (s : State) : Ending :=
  .next { s with pc := if c then s.pc + 4#16 else s.pc + 2#16, result := .cont }

/-- `pc <- target`, outcome `Continue`. -/
def transfer (target : Word) (s : State) : Ending := .next { s with pc := target, result := .cont }

/-- The instruction stays at its own address with outcome `r`, and nothing else changes. -/
def stay (r : StepResult) (s : State) : Ending := .next { s with result := r }

/-- The self-loop test common to `Jump`, `Call` and `JumpI` (42_jumps_calls.md R130): a target equal to the address of
the executing instruction changes no state; otherwise the transfer is made from `taken`. -/
def jumpOrLoop (target : Word) (taken : State) (s : State) : Ending :=
  if target = s.pc then stay .selfLoop s else transfer target taken

/-- TAKING AN ERROR (60_exceptions.md R220, R223, R226): the step returns `e` to the driver; `pc` and everything else
stay as the execute phase found them. There is no vector, no handler, no saved state and no mode, and no instruction
returns from an error (R227), so nothing stands beside this operation (log 7). -/
def takeError (e : EngineError) (s : State) : Ending := stay (.error e) s

/-- E5 for an access that begins at `addr`: no effect of the execute phase is kept (20_memory.md R56; log 5). -/
def faultMemory (addr : Word) (s : State) : Ending := .fault (.memoryOutOfRange addr s)

/-- E6 for the key code `k` (47_keys.md R194; log 6). -/
def faultKey (k : Byte) (s : State) : Ending := .fault (.keyIndexOutOfRange k s)

/-- The state with the two bytes of an instruction word stored at `pc`, where the next fetch reads them, and not paused,
since a paused step fetches nothing (log 19). Where `pc` leaves no room for a word, memory stays. -/
def State.placeAtPc (s : State) (bs : List Byte) : State :=
  let s := { s with paused := false }
  (s.memWrite? s.pc.toNat bs).getD s

end Sys2Proof.Machine
end

