-- ==== Sys2Proof/Machine/Flags.lean ====
section
/-! DEFINITION. Every flag computation: carry, the bit shifted out, and the order of result and flag where register 15
is the destination (44_alu.md R155 to R159). -/

namespace Sys2Proof.Machine

/-- The byte written to `V[15]`: 1 or 0. -/
def flagByte (b : Bool) : Byte := if b then 0x01#8 else 0x00#8

/-- The carry of `Addr`: the sum exceeds 255 (44_alu.md R155). -/
def carryOut (a b : Byte) : Bool := 255 < a.toNat + b.toNat

/-- The bit a right shift of `b` shifts out: bit 0 (44_alu.md R157). -/
def shiftedOutRight (b : Byte) : Bool := b.getLsbD 0

/-- The bit a left shift of `b` shifts out: bit 7 (44_alu.md R158). -/
def shiftedOutLeft (b : Byte) : Bool := b.getLsbD 7

/-- `V[15] <- flag`. -/
def State.setFlag (s : State) (flag : Bool) : State := s.setReg flagReg (flagByte flag)

/-- Write a result to `V[d]` and the flag to `V[15]` in the given order, which matters only for `d` = 15
(44_alu.md R159). -/
def State.setResultAndFlag (s : State) (order : FlagOrder) (d : Nibble) (r : Byte) (flag : Bool) : State :=
  { s with
    v :=
      match order with
      | .flagLast => ((s.setReg d r).setFlag flag).v
      | .flagFirst => ((s.setFlag flag).setReg d r).v }

end Sys2Proof.Machine
end

