-- ==== Sys2Proof/Machine/Operands.lean ====
section
/-! DEFINITION. Every operand form: the 12-bit address, the one addressing mode (`I` plus an ascending offset), glyph
addresses, decimal digits and screen coordinates (30_encoding.md R73; 48_timers_index_memory.md R209). -/

namespace Sys2Proof.Machine

/-- `zext_16(nnn)`: an address operand goes to `pc` or `I` without change of value (30_encoding.md R73). -/
def addr16 (nnn : Addr12) : Word := nnn.setWidth 16

/-- `zext_16(b)`. -/
def byte16 (b : Byte) : Word := b.setWidth 16

/-- The address `I + k`, on unbounded integers (20_memory.md R54). -/
def State.dataAddr (s : State) (k : Nat) : Nat := s.i.toNat + k

/-- How many registers `Stor` and `Read` transfer: `V[0] .. V[x]`. -/
def rangeLength (x : Nibble) : Nat := x.toNat + 1

/-- The largest glyph number (48_timers_index_memory.md R204). -/
def maxGlyph : Byte := BitVec.ofNat 8 (Config.nGlyphs - 1)

/-- `FONT_BASE + GLYPH_BYTES * g` (48_timers_index_memory.md R204). -/
def glyphAddr (g : Byte) : Word := BitVec.ofNat 16 (Config.fontBase + Config.glyphBytes * g.toNat)

/-- Hundreds, tens and ones digit of a byte (48_timers_index_memory.md R205). -/
def bcdDigits (v : Byte) : List Byte :=
  [BitVec.ofNat 8 (v.toNat / 100), BitVec.ofNat 8 (v.toNat / 10 % 10), BitVec.ofNat 8 (v.toNat % 10)]

/-- `(y0 + row) mod FB_H` (46_draw.md R180). -/
def screenRow (y0 : Byte) (row : Nat) : Fin Config.fbH :=
  ⟨(y0.toNat + row) % Config.fbH, Nat.mod_lt _ (by decide)⟩

/-- `(x0 + col) mod FB_W` (46_draw.md R180). -/
def screenCol (x0 : Byte) (col : Nat) : Fin Config.fbW :=
  ⟨(x0.toNat + col) % Config.fbW, Nat.mod_lt _ (by decide)⟩

/-- Bit `7 - col` of a sprite byte is pixel column `col`: the most significant bit is leftmost (46_draw.md R181). -/
def spriteBit (b : Byte) (col : Nat) : Bool := b.getLsbD (7 - col)

/-- `I <- (I + n) mod 65536` where the parameter says so, `n` the bytes transferred (48_timers_index_memory.md R206). -/
def State.bumpI (s : State) (increment : Bool) (n : Nat) : State :=
  s.setI (if increment then s.i + BitVec.ofNat 16 n else s.i)

end Sys2Proof.Machine
end

