-- ==== Sys2Proof/Machine/Alu.lean ====
section
/-! DEFINITION. Register-to-register arithmetic and logic, group 0x8 (44_alu.md). -/

namespace Sys2Proof.Machine

/-- `Move(x, y)` (R151). -/
def execMove (x y : Nibble) (s : State) : Ending := advance (s.setReg x (s.reg y))

/-- `Or(x, y)` (R152). -/
def execOr (x y : Nibble) (s : State) : Ending := advance (s.setReg x (s.reg x ||| s.reg y))

/-- `And(x, y)` (R153). -/
def execAnd (x y : Nibble) (s : State) : Ending := advance (s.setReg x (s.reg x &&& s.reg y))

/-- `Xor(x, y)` (R154). -/
def execXor (x y : Nibble) (s : State) : Ending := advance (s.setReg x (s.reg x ^^^ s.reg y))

/-- `Addr` under a given `FLAG_ORDER` (R155, R159): both operands are read before any write. -/
def addrWith (order : FlagOrder) (x y : Nibble) (s : State) : Ending :=
  advance (s.setResultAndFlag order x (s.reg x + s.reg y) (carryOut (s.reg x) (s.reg y)))

/-- `Addr(x, y)` (R155). -/
def execAddr (x y : Nibble) (s : State) : Ending := addrWith Config.flagOrder x y s

/-- `Sub(x, y)` (R156): no flag is written. -/
def execSub (x y : Nibble) (s : State) : Ending := advance (s.setReg x (s.reg x - s.reg y))

/-- `Shr` under a given `FLAG_ORDER` (R157, R159): `V[y]` receives the shifted `V[x]`, the flag is bit 0 of the old
`V[y]`. -/
def shrWith (order : FlagOrder) (x y : Nibble) (s : State) : Ending :=
  advance (s.setResultAndFlag order y (s.reg x >>> 1) (shiftedOutRight (s.reg y)))

/-- `Shr(x, y)` (R157). -/
def execShr (x y : Nibble) (s : State) : Ending := shrWith Config.flagOrder x y s

/-- `Shl` under a given `FLAG_ORDER` (R158, R159): `V[y]` receives the shifted `V[x]`, the flag is bit 7 of the old
`V[y]`. -/
def shlWith (order : FlagOrder) (x y : Nibble) (s : State) : Ending :=
  advance (s.setResultAndFlag order y (s.reg x <<< 1) (shiftedOutLeft (s.reg y)))

/-- `Shl(x, y)` (R158). -/
def execShl (x y : Nibble) (s : State) : Ending := shlWith Config.flagOrder x y s

end Sys2Proof.Machine
end

