-- ==== Sys2Proof/Machine/Draw.lean ====
section
/-! DEFINITION. The draw instruction (46_draw.md): the loop over rows and columns as R180 writes it. -/

namespace Sys2Proof.Machine

/-- One pixel under a sprite bit 1: note a collision where it is set, then invert it. The pair is the framebuffer and
the collision seen so far. -/
def plot (acc : Framebuffer × Bool) (r : Fin Config.fbH) (c : Fin Config.fbW) : Framebuffer × Bool :=
  (togglePixel acc.1 r c, acc.2 || pixel acc.1 r c)

/-- The 8 columns of one sprite row, from the left (R180). -/
def plotRow (x0 y0 : Byte) (row : Nat) (b : Byte) (acc : Framebuffer × Bool) : Framebuffer × Bool :=
  (List.range 8).foldl
    (fun acc col => if spriteBit b col then plot acc (screenRow y0 row) (screenCol x0 col) else acc) acc

/-- The sprite rows `row, row+1, ...`, from the top (R180). -/
def plotRows (x0 y0 : Byte) (row : Nat) : List Byte → Framebuffer × Bool → Framebuffer × Bool
  | [], acc => acc
  | b :: bs, acc => plotRows x0 y0 (row + 1) bs (plotRow x0 y0 row b acc)

/-- The sprite bytes: none for `n` = 0, whatever `I` holds; nothing where some row lies outside memory (R180). -/
def State.sprite? (s : State) (n : Nibble) : Option (List Byte) :=
  if n = 0x0#4 then some [] else s.memRead? (s.dataAddr 0) n.toNat

/-- `Draw(x, y, n)` (R180): the coordinates are read before `V[15]` is written (44_alu.md R159). -/
def execDraw (x y n : Nibble) (s : State) : Ending :=
  match s.sprite? n with
  | none => faultMemory s.i s
  | some bytes =>
    let drawn := plotRows (s.reg x) (s.reg y) 0 bytes (s.fb, false)
    advanceRedraw ({ s with fb := drawn.1 }.setFlag drawn.2)

end Sys2Proof.Machine
end

