-- ==== Sys2Proof/Machine/Extended.lean ====
section
/-! DEFINITION. Group 0xF but for `Keyd`: delay counter, address register, font pointer, decimal digits, register store
and load (48_timers_index_memory.md). -/

namespace Sys2Proof.Machine

/-- `Moved(x)` (R200). -/
def execMoved (x : Nibble) (s : State) : Ending := advance (s.setReg x s.dt)

/-- `Loadd(x)` (R201): `lastTick` is not touched. -/
def execLoadd (x : Nibble) (s : State) : Ending := advance (s.setDt (s.reg x))

/-- `Loads(x)` (R202): accepted, no effect; the register is not read. -/
def execLoads (_x : Nibble) (s : State) : Ending := advance s

/-- `Addi(x)` (R203): modulo 65536, no flag. -/
def execAddi (x : Nibble) (s : State) : Ending := advance (s.setI (s.i + byte16 (s.reg x)))

/-- `Ldspr(x)` (R204): E3 for a glyph number above 15. -/
def execLdspr (x : Nibble) (s : State) : Ending :=
  if maxGlyph < s.reg x then takeError (.spriteIndexOutOfRange (s.reg x)) s
  else advance (s.setI (glyphAddr (s.reg x)))

/-- `Bcd(x)` (R205). -/
def execBcd (x : Nibble) (s : State) : Ending :=
  match s.memWrite? (s.dataAddr 0) (bcdDigits (s.reg x)) with
  | none => faultMemory s.i s
  | some s' => advance s'

/-- `Stor` under a given `MEMX_I_INCREMENT` (R206, R207). -/
def storWith (increment : Bool) (x : Nibble) (s : State) : Ending :=
  match s.memWrite? (s.dataAddr 0) (s.regList (rangeLength x)) with
  | none => faultMemory s.i s
  | some s' => advance (s'.bumpI increment (rangeLength x))

/-- `Stor(x)` (R207). -/
def execStor (x : Nibble) (s : State) : Ending := storWith Config.memxIIncrement x s

/-- `Read` under a given `MEMX_I_INCREMENT` (R206, R208). -/
def readWith (increment : Bool) (x : Nibble) (s : State) : Ending :=
  match s.memRead? (s.dataAddr 0) (rangeLength x) with
  | none => faultMemory s.i s
  | some bytes => advance ((s.fillRegs 0 bytes).bumpI increment (rangeLength x))

/-- `Read(x)` (R208). -/
def execRead (x : Nibble) (s : State) : Ending := readWith Config.memxIIncrement x s

end Sys2Proof.Machine
end

