-- ==== Sys2Proof/Machine/Immediate.lean ====
section
/-! DEFINITION. Immediate loads, immediate add, address-register load, random (45_immediate_random.md). -/

namespace Sys2Proof.Machine

/-- `Load(x, kk)` (R170). -/
def execLoad (x : Nibble) (kk : Byte) (s : State) : Ending := advance (s.setReg x kk)

/-- `Add(x, kk)` (R171): no flag is written. -/
def execAdd (x : Nibble) (kk : Byte) (s : State) : Ending := advance (s.setReg x (s.reg x + kk))

/-- `LoadI(nnn)` (R172). -/
def execLoadI (nnn : Addr12) (s : State) : Ending := advance (s.setI (addr16 nnn))

/-- `Rand(x, kk)` (R173). -/
def execRand (x : Nibble) (kk : Byte) (s : State) : Ending :=
  match s.draw8 with
  | (r, s') => advance (s'.setReg x (r &&& kk))

end Sys2Proof.Machine
end

