-- ==== Sys2Proof/Machine/Jumps.lean ====
section
/-! DEFINITION. Jumps and calls: `Jump`, `Call`, `JumpI` (42_jumps_calls.md). -/

namespace Sys2Proof.Machine

/-- `Jump(nnn)` (R131). -/
def execJump (nnn : Addr12) (s : State) : Ending := jumpOrLoop (addr16 nnn) s s

/-- `Call(nnn)` (R132): pushes `pc + 2`, but nothing on a self-loop. -/
def execCall (nnn : Addr12) (s : State) : Ending := jumpOrLoop (addr16 nnn) (s.push (s.pc + 2#16)) s

/-- `JumpI(nnn)` (R133): the target is `(nnn + V[0]) mod 65536`. -/
def execJumpI (nnn : Addr12) (s : State) : Ending := jumpOrLoop (addr16 nnn + byte16 (s.reg 0x0#4)) s s

end Sys2Proof.Machine
end

