-- ==== Sys2Proof/Machine/Keys.lean ====
section
/-! DEFINITION. Key-state instructions: `Skpr`, `Skup`, `Keyd` (47_keys.md). -/

namespace Sys2Proof.Machine

/-- `Skpr(x)` (R190): skip if the key is pressed; E6 above 15 (R194). -/
def execSkpr (x : Nibble) (s : State) : Ending :=
  match s.keyAt? (s.reg x).toNat with
  | none => faultKey (s.reg x) s
  | some pressed => skipIf pressed s

/-- `Skup(x)` (R191): skip if the key is not pressed; E6 above 15 (R194). -/
def execSkup (x : Nibble) (s : State) : Ending :=
  match s.keyAt? (s.reg x).toNat with
  | none => faultKey (s.reg x) s
  | some pressed => skipIf (!pressed) s

/-- `Keyd(x)` (R192): stores the least pressed code, or stays on the instruction while no key is pressed. -/
def execKeyd (x : Nibble) (s : State) : Ending :=
  match s.leastKey? with
  | none => stay .cont s
  | some k => advance (s.setReg x (BitVec.ofNat 8 k))

end Sys2Proof.Machine
end

