-- ==== Sys2Proof/Machine/Skips.lean ====
section
/-! DEFINITION. Compare and skip: `Ske`, `Skne`, `Skre`, `Skrne` (43_skips.md). -/

namespace Sys2Proof.Machine

/-- `Ske(x, kk)` (R141). -/
def execSke (x : Nibble) (kk : Byte) (s : State) : Ending := skipIf (s.reg x == kk) s

/-- `Skne(x, kk)` (R142). -/
def execSkne (x : Nibble) (kk : Byte) (s : State) : Ending := skipIf (s.reg x != kk) s

/-- `Skre(x, y)` (R143). -/
def execSkre (x y : Nibble) (s : State) : Ending := skipIf (s.reg x == s.reg y) s

/-- `Skrne(x, y)` (R144). -/
def execSkrne (x y : Nibble) (s : State) : Ending := skipIf (s.reg x != s.reg y) s

end Sys2Proof.Machine
end

