-- ==== Sys2Proof/Machine/System.lean ====
section
/-! DEFINITION. Group 0x0: `Sys`, `Clr`, `Rts` (41_system_display.md). -/

namespace Sys2Proof.Machine

/-- `Sys(nnn)` (R120): halts for 0, without advancing `pc`; any other value is the error E4. -/
def execSys (nnn : Addr12) (s : State) : Ending :=
  if nnn = 0x000#12 then stay .halted s else takeError (.unimplementedSysCall nnn) s

/-- `Clr` (R121). -/
def execClr (s : State) : Ending := advanceRedraw { s with fb := blankScreen }

/-- `Rts` (R122): `pc` becomes the popped value; the error E2 on the empty stack. -/
def execRts (s : State) : Ending :=
  match s.pop? with
  | none => takeError .returnFromEmptyStack s
  | some (target, s') => transfer target s'

end Sys2Proof.Machine
end

