-- ==== Sys2Proof/Machine/Dispatch.lean ====
section
/-! DEFINITION. The execute phase (40_step_cycle.md R104): one meaning per variant. -/

namespace Sys2Proof.Machine

def exec (i : Instr) (s : State) : Host.Outcome State Fault Refusal :=
  match i with
  | .sys nnn => Sys2Proof.Machine.execSys nnn s
  | .clr => Sys2Proof.Machine.execClr s
  | .rts => Sys2Proof.Machine.execRts s
  | .jump nnn => Sys2Proof.Machine.execJump nnn s
  | .call nnn => Sys2Proof.Machine.execCall nnn s
  | .ske x kk => Sys2Proof.Machine.execSke x kk s
  | .skne x kk => Sys2Proof.Machine.execSkne x kk s
  | .skre x y => Sys2Proof.Machine.execSkre x y s
  | .load x kk => Sys2Proof.Machine.execLoad x kk s
  | .add x kk => Sys2Proof.Machine.execAdd x kk s
  | .move x y => Sys2Proof.Machine.execMove x y s
  | .or x y => Sys2Proof.Machine.execOr x y s
  | .and x y => Sys2Proof.Machine.execAnd x y s
  | .xor x y => Sys2Proof.Machine.execXor x y s
  | .addr x y => Sys2Proof.Machine.execAddr x y s
  | .sub x y => Sys2Proof.Machine.execSub x y s
  | .shr x y => Sys2Proof.Machine.execShr x y s
  | .shl x y => Sys2Proof.Machine.execShl x y s
  | .skrne x y => Sys2Proof.Machine.execSkrne x y s
  | .loadI nnn => Sys2Proof.Machine.execLoadI nnn s
  | .jumpI nnn => Sys2Proof.Machine.execJumpI nnn s
  | .rand x kk => Sys2Proof.Machine.execRand x kk s
  | .draw x y n => Sys2Proof.Machine.execDraw x y n s
  | .skpr x => Sys2Proof.Machine.execSkpr x s
  | .skup x => Sys2Proof.Machine.execSkup x s
  | .moved x => Sys2Proof.Machine.execMoved x s
  | .keyd x => Sys2Proof.Machine.execKeyd x s
  | .loadd x => Sys2Proof.Machine.execLoadd x s
  | .loads x => Sys2Proof.Machine.execLoads x s
  | .addi x => Sys2Proof.Machine.execAddi x s
  | .ldspr x => Sys2Proof.Machine.execLdspr x s
  | .bcd x => Sys2Proof.Machine.execBcd x s
  | .stor x => Sys2Proof.Machine.execStor x s
  | .read x => Sys2Proof.Machine.execRead x s

end Sys2Proof.Machine
end

