-- ==== Sys2Proof/Machine/Cycle.lean ====
section
/-! DEFINITION. The step cycle (40_step_cycle.md): pause check, delay tick, fetch, decode, execute. The program-counter
advance is part of each meaning. -/

namespace Sys2Proof.Machine

/-- One decrement with floor at zero (R102). -/
def decrementFloor (b : Byte) : Byte := if b = 0x00#8 then b else b - 1#8

/-- "At least" one interval has elapsed since the last tick (R102, decision D37). -/
def State.tickDue (s : State) (now : Nat) : Bool := Config.tickInterval ≤ now - s.lastTick

/-- The delay tick of R102 at the time `now`, which is also noted as the latest time observed (log 1). -/
def State.tick (s : State) (now : Nat) : State :=
  { s with
    dt := if s.tickDue now then decrementFloor s.dt else s.dt
    lastTick := if s.tickDue now then now else s.lastTick
    clock := now
    clockReads := s.clockReads + 1 }

/-- The instruction word at `pc` (R103): nothing where its two bytes do not lie inside memory. -/
def State.fetch? (s : State) : Option Word :=
  match s.memRead? s.pc.toNat 2 with
  | some [hi, lo] => some (wordOfBytes hi lo)
  | _ => none

/-- Fetch, decode and execute (R103, R104), after the tick. -/
def runFetched (s : State) : Ending :=
  match s.fetch? with
  | none => faultMemory s.pc s
  | some w =>
    match decode w with
    | .error (.unrecognizedSuffix w) => takeError (.decodeError w) s
    | .ok i => exec i s

/-- One step (R100) at the time `now`. A paused step returns `Continue` and changes nothing (R101). -/
def stepAt (now : Nat) (s : State) : Ending :=
  if s.paused then stay .cont s else runFetched (s.tick now)

/-- The time at the next observation of the clock: a free, non-decreasing value (R100; log 1). -/
def State.nextNow (s : State) : Nat := s.clock + Config.elapsed s.clockReads

end Sys2Proof.Machine
end

