-- ==== Sys2Proof/Machine/Step.lean ====
section
/-! DEFINITION. One step, and where it fetches its instruction. -/

namespace Sys2Proof.Machine

/-- One step (40_step_cycle.md R100) at the next, free, time. -/
def step (s : State) : Host.Outcome State Fault Refusal := stepAt s.nextNow s

/-- `s` with the instruction whose bits are `w` stored where the next step fetches it (log 19). -/
def State.withFetchWord (s : State) (nbits w : Nat) : State := s.placeAtPc (bytesOfWord (tableWord nbits w))

end Sys2Proof.Machine
end

