-- ==== Sys2Proof/Machine/Session.lean ====
section
/-! DEFINITION. The Host interface (10_state.md R44), the rate controller (60_exceptions.md R234) and runs as
interleavings of whole steps with whole Host actions (20_memory.md R60; log 15). -/

namespace Sys2Proof.Machine

/-- The longest ROM that fits, `MEM_SIZE - LOAD_ADDR` = 3584 (70_reset_and_hazards.md R255). -/
def maxRomLength : Nat := Config.memSize - Config.loadAddr

/-- `create(ROM)` at the time `now` (70_reset_and_hazards.md R250); refuses a ROM that does not fit (R255). The driver
loop is taken to start at the same time (log 12). -/
def create (rom : List Byte) (now : Nat) : Except Refusal State :=
  if rom.length ≤ maxRomLength then
    .ok { State.reset with mem := Memory.image rom, rom := rom, lastTick := now, boundary := now, clock := now }
  else .error (.romTooLong rom.length)

/-- `reset()` (70_reset_and_hazards.md R251): `paused`, `lastTick` and `boundary` are unchanged. -/
def hostReset (s : State) : State :=
  { s with
    v := State.reset.v
    i := State.reset.i
    dt := State.reset.dt
    stack := State.reset.stack
    pc := State.reset.pc
    mem := Memory.image s.rom
    fb := blankScreen
    key := State.reset.key }

/-- What the Host sees of the framebuffer: a snapshot of the whole (20_memory.md R60; 10_state.md R44). -/
def snapshot (s : State) : Framebuffer := s.fb

/-- What the Host may do to the block between steps (60_exceptions.md R239). -/
inductive HostAction where
  /-- Replace the whole key array. -/
  | writeKeys (keys : KeyState)
  /-- Toggle `paused`. -/
  | togglePaused
  /-- `reset()`. -/
  | reset
  /-- Take a `snapshot` of the framebuffer. -/
  | readFramebuffer
deriving DecidableEq, Repr

/-- The effect of one Host action, atomic like a step. -/
def hostAct (a : HostAction) (s : State) : State :=
  match a with
  | .writeKeys keys => { s with key := keys }
  | .togglePaused => { s with paused := !s.paused }
  | .reset => hostReset s
  | .readFramebuffer => s

/-- What the rate controller returns "for observability" (60_exceptions.md R234). -/
structure PaceReport where
  busy : Nat
  total : Nat
deriving DecidableEq, Repr

/-- The period, 1 second / `RATE`, in whole nanoseconds (60_exceptions.md R234; log 14). -/
def period (rate : Nat) : Nat := Config.second / rate

/-- `pace` (60_exceptions.md R234) called at the time `now`, with a sleep that ends `late` after the time asked for: the
sleep is `max(0, period - busy)`, and only `boundary` and the observed time change. `RATE` = 0 is refused (R235 c). -/
def paceAt (rate : Nat) (now late : Nat) (s : State) : Except Refusal (PaceReport × State) :=
  if rate = 0 then .error .rateNotPositive
  else
    let busy := now - s.boundary
    let after := now + (period rate - busy) + late
    .ok ({ busy := busy, total := after - s.boundary },
      { s with boundary := after, clock := after, clockReads := s.clockReads + 2 })

/-- `pace` at free times: the call, and how late the sleep ends (log 14). -/
def pace (rate : Nat) (s : State) : Except Refusal (PaceReport × State) :=
  paceAt rate s.nextNow (Config.elapsed (s.clockReads + 1)) s

/-- One event of a session: a step, a Host action, or a call of the rate controller with the `RATE` of that moment. -/
inductive Event where
  | step
  | host (a : HostAction)
  | pace (rate : Nat)
deriving DecidableEq, Repr

/-- One event, taken whole (20_memory.md R60). -/
def runEvent (e : Event) (s : State) : Ending :=
  match e with
  | .step => step s
  | .host a => .next (hostAct a s)
  | .pace rate =>
    match pace rate s with
    | .error r => .refused r
    | .ok (_, s') => .next s'

/-- A session: any interleaving of steps, Host actions and pacing. -/
def runEvents : List Event → State → Ending
  | [], s => .next s
  | e :: es, s =>
    match runEvent e s with
    | .next s' => runEvents es s'
    | .fault f => .fault f
    | .refused r => .refused r

/-! Runs and how they end (40_step_cycle.md R109). -/

/-- The three end conditions of R109. Which of them end a run is the driver's choice. -/
inductive EndCondition where
  /-- `EndHalted`: the first step that returns `Halted`. -/
  | halted
  /-- `EndSelfLoop`: the first step that returns `SelfLoop`. -/
  | selfLoop
  /-- `EndError`: the first step that returns an error, E1 to E4 as a result or E5 and E6 as a fault. -/
  | error
deriving DecidableEq, Repr

/-- All three: the conditions of 70_reset_and_hazards.md R262, whose loop goes on after `Continue` and
`ContinueRedraw` alone. -/
def EndCondition.all : List EndCondition := [.halted, .selfLoop, .error]

/-- The end condition a result meets, if any. -/
def StepResult.endCondition? : StepResult → Option EndCondition
  | .cont => none
  | .continueRedraw => none
  | .selfLoop => some .selfLoop
  | .halted => some .halted
  | .error _ => some .error

/-- A step that ended so meets the end condition. -/
def EndCondition.metBy (c : EndCondition) : Ending → Bool
  | .next t => t.result.endCondition? == some c
  | .fault _ => c == .error
  | .refused _ => false

/-- The state an error left that the model answers as a fault (60_exceptions.md R226). -/
def Fault.after : Fault → State
  | .memoryOutOfRange _ t => t
  | .keyIndexOutOfRange _ t => t

/-- The event is a step. -/
def Event.isStep : Event → Bool
  | .step => true
  | .host _ => false
  | .pace _ => false

/-- The event is the driver's, not the Host's. -/
def Event.ofDriver : Event → Bool
  | .step => true
  | .host _ => false
  | .pace _ => true

/-- Where a run stands. -/
inductive RunEnd where
  /-- The step that ended as `last` was the first to meet one of the driver's conditions, `c`; `rest` was not performed. -/
  | ended (c : EndCondition) (last : Ending) (rest : List Event)
  /-- All events were performed and no step met a condition; the run is at this state. -/
  | ongoing (s : State)
  /-- An event outside the contract was refused. -/
  | refused (r : Refusal)
deriving Repr

/-- A run (40_step_cycle.md R109): steps interleaved with Host actions and pacing, up to the first step that meets one of
the conditions `stops`. After an error that is not among them the run goes on from the state the error left
(60_exceptions.md R226, R227). -/
def runUntil (stops : List EndCondition) : List Event → State → RunEnd
  | [], s => .ongoing s
  | e :: es, s =>
    match stops.find? fun c => e.isStep && c.metBy (runEvent e s) with
    | some c => .ended c (runEvent e s) es
    | none =>
      match runEvent e s with
      | .next t => runUntil stops es t
      | .fault f => runUntil stops es f.after
      | .refused r => .refused r

/-- The driver's own events (70_reset_and_hazards.md R262): a step, then pacing, with the `RATE` read at each
iteration. -/
def driverEvents (rates : List Nat) : List Event := rates.flatMap fun rate => [.step, .pace rate]

/-- The driver loop of 70_reset_and_hazards.md R262 with no Host action. It stops where the list of rates ends. -/
def driverLoop (rates : List Nat) (s : State) : RunEnd := runUntil EndCondition.all (driverEvents rates) s

end Sys2Proof.Machine
end

