-- ==== Sys2Proof/Safety.lean ====
section
/-! DEFINITION. The terms claims use: the invariants of the machine, what an instruction leaves unchanged, the pixels a
sprite covers, the ends of a run (40_step_cycle.md R109) and launch premises (70_reset_and_hazards.md R256). -/

namespace Sys2Proof.Machine

/-! Invariants. -/

/-- Memory is in its canonical form, the kept ROM fits (70_reset_and_hazards.md R255), and no recorded time is later
than the latest time observed ("monotonic", 10_state.md R29). -/
abbrev State.Inv (s : State) : Prop :=
  Memory.wf s.mem = true ∧ s.rom.length ≤ maxRomLength ∧ s.lastTick ≤ s.clock ∧ s.boundary ≤ s.clock

/-- How far `pc` and the return addresses reach (10_state.md R25): a target is at most 0x10FE, a return address at most
0x1000. -/
abbrev State.AddressesBounded (s : State) : Prop :=
  s.pc.toNat ≤ 0x10FE ∧ ∀ a ∈ s.stack, a.toNat ≤ 0x1000

/-! Frames. -/

/-- The pieces of state other than the data registers, `pc` and the result. -/
inductive Part where
  | i | stack | dt | mem | fb | key | paused | lastTick | boundary | rom | clock | clockReads | randDraws
deriving DecidableEq, Repr

/-- The piece is the same in both states; memory by what every address reads as. -/
def Part.Same (p : Part) (s t : State) : Prop :=
  match p with
  | .i => t.i = s.i
  | .stack => t.stack = s.stack
  | .dt => t.dt = s.dt
  | .mem => ∀ a, t.readByte a = s.readByte a
  | .fb => t.fb = s.fb
  | .key => t.key = s.key
  | .paused => t.paused = s.paused
  | .lastTick => t.lastTick = s.lastTick
  | .boundary => t.boundary = s.boundary
  | .rom => t.rom = s.rom
  | .clock => t.clock = s.clock
  | .clockReads => t.clockReads = s.clockReads
  | .randDraws => t.randDraws = s.randDraws

/-- From `s` to `t` every data register but `regs` and every piece but `parts` is unchanged. -/
def Frame (s t : State) (regs : List Nibble) (parts : List Part) : Prop :=
  (∀ r, r ∉ regs → t.reg r = s.reg r) ∧ ∀ p, p ∉ parts → p.Same s t

/-- The pieces the delay tick may change (40_step_cycle.md R102), the model's clock among them. -/
def tickParts : List Part := [.dt, .lastTick, .clock, .clockReads]

/-- The data registers an instruction may write, its flag register among them (10_state.md R21). -/
def destinations : Instr → List Nibble
  | .sys _ => []
  | .clr => []
  | .rts => []
  | .jump _ => []
  | .call _ => []
  | .ske _ _ => []
  | .skne _ _ => []
  | .skre _ _ => []
  | .load x _ => [x]
  | .add x _ => [x]
  | .move x _ => [x]
  | .or x _ => [x]
  | .and x _ => [x]
  | .xor x _ => [x]
  | .addr x _ => [x, flagReg]
  | .sub x _ => [x]
  | .shr _ y => [y, flagReg]
  | .shl _ y => [y, flagReg]
  | .skrne _ _ => []
  | .loadI _ => []
  | .jumpI _ => []
  | .rand x _ => [x]
  | .draw _ _ _ => [flagReg]
  | .skpr _ => []
  | .skup _ => []
  | .moved x => [x]
  | .keyd x => [x]
  | .loadd _ => []
  | .loads _ => []
  | .addi _ => []
  | .ldspr _ => []
  | .bcd _ => []
  | .stor _ => []
  | .read x => (List.range (rangeLength x)).map (BitVec.ofNat 4)

/-- The program counter the self-loop test compares with `pc` (42_jumps_calls.md R130); nothing for other instructions. -/
def jumpTarget? (i : Instr) (s : State) : Option Word :=
  match i with
  | .jump nnn => some (addr16 nnn)
  | .call nnn => some (addr16 nnn)
  | .jumpI nnn => some (addr16 nnn + byte16 (s.reg 0x0#4))
  | _ => none

/-! Encodings. -/

/-- The encoding of an instruction (30_encoding.md R76, R84): its word is the number `n`, and `decode` reads the
instruction from that word. -/
def EncodedAs (i : Instr) (n : Nat) : Prop := (encode i).toNat = n ∧ decode (encode i) = .ok i

/-! Sprites. -/

/-- The sprite of height `n` at column `x0`, row `y0`, with bytes from address `a` on, has a 1 bit whose target is the
pixel at row `r`, column `c` (46_draw.md R180 to R182). -/
def SpriteCovers (s : State) (a : Nat) (x0 y0 : Byte) (n : Nat) (r : Fin Config.fbH) (c : Fin Config.fbW) : Prop :=
  ∃ row < n, ∃ col < 8, (s.readByte (a + row)).getLsbD (7 - col) = true ∧
    (y0.toNat + row) % Config.fbH = r.val ∧ (x0.toNat + col) % Config.fbW = c.val

/-! The word the next fetch reads. -/

/-- The two bytes at `pc` and `pc + 1`, big-endian (20_memory.md R51). -/
def State.wordAtPc (s : State) : Word := s.readByte s.pc.toNat ++ s.readByte (s.pc.toNat + 1)

/-- An unpaused step finds the word at `pc` inside memory. -/
abbrev State.CanFetch (s : State) : Prop := s.paused = false ∧ s.pc.toNat + 2 ≤ Config.memSize

/-! Runs (40_step_cycle.md R109). -/

/-- The run over `es` takes a step in the state `u`: the events before that step did not end it. -/
def TakesStepAt (stops : List EndCondition) (es : List Event) (s u : State) : Prop :=
  ∃ before rest, es = before ++ .step :: rest ∧ runUntil stops before s = .ongoing u

/-- `EndHalted`: the run ends at its first `Halted`, in the state `t`, where the driver stops on `stops`. -/
def EndHalted (stops : List EndCondition) (es : List Event) (s t : State) : Prop :=
  ∃ rest, runUntil stops es s = .ended .halted (.next t) rest

/-- `EndSelfLoop`: the run ends at its first `SelfLoop`, in the state `t`. -/
def EndSelfLoop (stops : List EndCondition) (es : List Event) (s t : State) : Prop :=
  ∃ rest, runUntil stops es s = .ended .selfLoop (.next t) rest

/-- `EndError`: the run ends at its first error, which is the result of the step or its fault. -/
def EndError (stops : List EndCondition) (es : List Event) (s : State) (last : Ending) : Prop :=
  ∃ rest, runUntil stops es s = .ended .error last rest

/-- An infinite run: no step of the endless sequence of events meets a condition. -/
def RunsForever (stops : List EndCondition) (es : Nat → Event) (s : State) : Prop :=
  ∀ n, ∃ t, runUntil stops ((List.range n).map es) s = .ongoing t

/-- But for Host actions, the events come in the order of the driver loop (70_reset_and_hazards.md R262): step, pacing,
step, pacing. -/
def FollowsDriverOrder (es : List Event) : Prop := ∃ rates, es.filter Event.ofDriver <+: driverEvents rates

/-! Launch premises (70_reset_and_hazards.md R256). -/

/-- `LaunchClean`: the state is what `create` builds from a ROM that fits. -/
def LaunchClean (s : State) : Prop := ∃ rom now, create rom now = .ok s

/-- `NotPaused`. -/
abbrev NotPaused (s : State) : Prop := s.paused = false

/-- `TimeMonotone`: of two steps of the run, the later one's `now` is not before the earlier one's. -/
def TimeMonotone (stops : List EndCondition) (es : List Event) (s : State) : Prop :=
  ∀ before mid rest u v, es = before ++ .step :: (mid ++ .step :: rest) → runUntil stops before s = .ongoing u →
    runUntil stops (before ++ .step :: mid) s = .ongoing v → u.nextNow ≤ v.nextNow

/-- `HostQuiet`: the Host performs no action during the run. -/
def HostQuiet (es : List Event) : Prop := ∀ a, Event.host a ∉ es

/-- `NoTick`, over a run: at no step does `now` reach `last_tick + TICK_MS`; or `DT` is 0 at every step. -/
def NoTick (stops : List EndCondition) (es : List Event) (s : State) : Prop :=
  (∀ u, TakesStepAt stops es s u → u.tickDue u.nextNow = false) ∨ ∀ u, TakesStepAt stops es s u → u.dt = 0x00#8

end Sys2Proof.Machine
end

