-- ==== Sys2Proof/Certificates/Slice0/Obligations.lean ====
section
/-! DEFINITION. The statements for the provers. Each docstring names the rules of spec/ it formalises. -/

open Sys2Proof Sys2Proof.Machine

/-! ## Encoding (30_encoding.md) -/

/-- R86: `decode(encode(i)) = i` but for `Sys(0x0E0)` and `Sys(0x0EE)`, whose words decode to `Clr` and `Rts`; those two
are the values that are not well formed, and `decode` never produces them. -/
def Obligations.DecodeOfEncode : Prop :=
  (∀ i : Instr, i.wellFormed = true ↔ i ≠ .sys 0x0E0#12 ∧ i ≠ .sys 0x0EE#12) ∧
  (∀ i : Instr, i.wellFormed = true → decode (encode i) = .ok i) ∧
  (encode (.sys 0x0E0#12) = 0x00E0#16 ∧ decode 0x00E0#16 = .ok .clr) ∧
  (encode (.sys 0x0EE#12) = 0x00EE#16 ∧ decode 0x00EE#16 = .ok .rts) ∧
  (∀ w i, decode w = .ok i → i.wellFormed = true)

/-- R85: `encode(decode(w)) = w` for every word that decodes, hence `decode` is injective on valid words. -/
def Obligations.EncodeOfDecode : Prop :=
  (∀ w i, decode w = .ok i → encode i = w) ∧
  (∀ w w' i, decode w = .ok i → decode w' = .ok i → w = w')

/-- R78 to R81, R83: the words that do not decode, group by group, and the error carries the word. -/
def Obligations.DecodeErrorWords : Prop :=
  (∀ w e, decode w = .error e → e = .unrecognizedSuffix w) ∧
  ∀ w : Word, (∃ e, decode w = .error e) ↔
    (w.toNat / 4096 = 0x5 ∧ w.toNat % 16 ≠ 0) ∨
    (w.toNat / 4096 = 0x9 ∧ w.toNat % 16 ≠ 0) ∨
    (w.toNat / 4096 = 0x8 ∧ w.toNat % 16 ∉ [0x0, 0x1, 0x2, 0x3, 0x4, 0x5, 0x6, 0xE]) ∨
    (w.toNat / 4096 = 0xE ∧ w.toNat % 256 ∉ [0x9E, 0xA1]) ∨
    (w.toNat / 4096 = 0xF ∧ w.toNat % 256 ∉ [0x07, 0x0A, 0x15, 0x18, 0x1E, 0x29, 0x33, 0x55, 0x65])

/-- R92: the worked encodings. R92 marks its sentence on `Load(reg=3, val=0x42)` as derived from R84. -/
def Obligations.WorkedEncodings : Prop :=
  encode (.load 3 0x42) = 0x6342#16 ∧ bytesOfWord 0x6342#16 = [0x63#8, 0x42#8] ∧ decode 0x6342#16 = .ok (.load 3 0x42) ∧
  encode (.draw 1 2 5) = 0xD125#16 ∧ decode 0xD125#16 = .ok (.draw 1 2 5) ∧
  encode (.skup 10) = 0xEAA1#16 ∧ decode 0xEAA1#16 = .ok (.skup 10) ∧
  encode (.sys 0) = 0x0000#16 ∧ decode 0x0000#16 = .ok (.sys 0) ∧
  decode 0x8127#16 = .error (.unrecognizedSuffix 0x8127#16) ∧
  decode 0x5121#16 = .error (.unrecognizedSuffix 0x5121#16) ∧
  decode 0xE19F#16 = .error (.unrecognizedSuffix 0xE19F#16) ∧
  decode 0xF1FF#16 = .error (.unrecognizedSuffix 0xF1FF#16)

/-! ## The step cycle (40_step_cycle.md, 60_exceptions.md) -/

/-- R100, R103, R104: an unpaused step whose two bytes at `pc` decode to an instruction is that instruction's meaning
after the tick. -/
def Obligations.StepRunsDecoded : Prop :=
  ∀ (s : State) (i : Instr), s.CanFetch → decode s.wordAtPc = .ok i → step s = exec i (s.tick s.nextNow)

/-- R102: the tick at a time `now`. 16 milliseconds are 16000000 of the model's time units. -/
def Obligations.TickRule : Prop :=
  ∀ (s : State) (now : Nat),
    let t := s.tick now
    (now - s.lastTick ≥ 16000000 → t.dt.toNat = s.dt.toNat - 1 ∧ t.lastTick = now) ∧
    (now - s.lastTick < 16000000 → t.dt = s.dt ∧ t.lastTick = s.lastTick) ∧
    t.clock = now ∧ t.pc = s.pc ∧ t.result = s.result ∧ Frame s t [] tickParts

/-- R100, R256 (`TimeMonotone`): the time of a step is never before the latest time observed, and of two steps of a run,
with whatever between them, the later one's time is not before the earlier one's. The clock is the model's own (log 1). -/
def Obligations.TimeIsMonotone : Prop :=
  (∀ s : State, s.clock ≤ s.nextNow) ∧ (∀ s t : State, step s = .next t → s.clock ≤ t.clock) ∧
  ∀ (stops : List EndCondition) (es : List Event) (s : State), TimeMonotone stops es s

/-- R101: a paused step returns `Continue` and changes no state whatever; no step toggles `paused`. -/
def Obligations.PausedStepDoesNothing : Prop :=
  (∀ s : State, s.paused = true →
    ∃ t, step s = .next t ∧ t.result = .cont ∧ t.pc = s.pc ∧ t.mem = s.mem ∧ Frame s t [] []) ∧
  ∀ s t : State, step s = .next t → t.paused = s.paused

/-- R103, R226: a word that does not decode ends the step with `DecodeError(w)`; nothing but the tick has happened. -/
def Obligations.DecodeErrorStep : Prop :=
  ∀ (s : State) (e : DecodeError), s.CanFetch → decode s.wordAtPc = .error e →
    ∃ t, step s = .next t ∧ t.result = .error (.decodeError s.wordAtPc) ∧ t.pc = s.pc ∧
      t.dt = (s.tick s.nextNow).dt ∧ t.lastTick = (s.tick s.nextNow).lastTick ∧ Frame s t [] tickParts

/-- R56, R103: a fetch that does not lie inside memory is the fault `MemoryOutOfRange(pc)`, and the tick is kept. -/
def Obligations.FetchOutsideFaults : Prop :=
  ∀ s : State, s.paused = false → 4096 < s.pc.toNat + 2 →
    step s = .fault (.memoryOutOfRange s.pc (s.tick s.nextNow))

/-- R51, R62: a word stored at `pc`, high byte first, is the word the very next fetch decodes. `withFetchWord` is the
model's own aid for storing it and also clears `paused` (log 19); that memory is canonical is the model's invariant
(log 10). -/
def Obligations.FetchReadsWhatWasStored : Prop :=
  ∀ (s : State) (w : Word) (i : Instr), Memory.wf s.mem = true → s.pc.toNat + 2 ≤ 4096 → decode w = .ok i →
    let u := s.withFetchWord 16 w.toNat
    u.readByte s.pc.toNat = w.extractLsb' 8 8 ∧ u.readByte (s.pc.toNat + 1) = w.extractLsb' 0 8 ∧
    step u = exec i (u.tick u.nextNow)

/-- R226: a step that returns an error of the source leaves everything as before but the delay tick. -/
def Obligations.ErrorStepKeepsState : Prop :=
  ∀ (s t : State) (e : EngineError), step s = .next t → t.result = .error e →
    t.pc = s.pc ∧ t.mem = s.mem ∧ t.dt = (s.tick s.nextNow).dt ∧ t.lastTick = (s.tick s.nextNow).lastTick ∧
    Frame s t [] tickParts

/-- R226: a step that ends in a model fault leaves everything as before but the delay tick. -/
def Obligations.FaultStepKeepsState : Prop :=
  ∀ s u : State,
    (∀ addr, step s = .fault (.memoryOutOfRange addr u) → u = s.tick s.nextNow ∧ (addr = s.pc ∨ addr = s.i)) ∧
    (∀ k, step s = .fault (.keyIndexOutOfRange k u) → u = s.tick s.nextNow ∧ 15 < k.toNat)

/-- R226: a failing step repeated on the machine it leaves fails again with the same error. -/
def Obligations.FailingStepFailsAgain : Prop :=
  ∀ s t : State,
    (∀ e, step s = .next t → t.result = .error e → ∃ u, step t = .next u ∧ u.result = .error e) ∧
    (∀ addr, step s = .fault (.memoryOutOfRange addr t) → ∃ u, step t = .fault (.memoryOutOfRange addr u)) ∧
    (∀ k, step s = .fault (.keyIndexOutOfRange k t) → ∃ u, step t = .fault (.keyIndexOutOfRange k u))

/-- R224: the order of the checks, read off the error of a step: paused, then fetch range, then decode, then the one
error of the instruction. -/
def Obligations.ErrorPriority : Prop :=
  ∀ s t : State,
    (∀ e, step s = .next t → t.result = .error e → s.CanFetch ∧
      match e with
      | .decodeError w => w = s.wordAtPc ∧ decode w = .error (.unrecognizedSuffix w)
      | .returnFromEmptyStack => decode s.wordAtPc = .ok .rts ∧ s.stack = []
      | .spriteIndexOutOfRange g => ∃ x, decode s.wordAtPc = .ok (.ldspr x) ∧ g = s.reg x ∧ 15 < g.toNat
      | .unimplementedSysCall nnn => decode s.wordAtPc = .ok (.sys nnn) ∧ nnn ≠ 0) ∧
    (∀ addr, step s = .fault (.memoryOutOfRange addr t) → s.paused = false ∧
      ((addr = s.pc ∧ 4096 < s.pc.toNat + 2) ∨
       (addr = s.i ∧ s.CanFetch ∧
        ((∃ x y n, decode s.wordAtPc = .ok (.draw x y n) ∧ n ≠ 0 ∧ 4096 < s.i.toNat + n.toNat) ∨
         (∃ x, decode s.wordAtPc = .ok (.bcd x) ∧ 4096 < s.i.toNat + 3) ∨
         (∃ x, decode s.wordAtPc = .ok (.stor x) ∧ 4096 < s.i.toNat + x.toNat + 1) ∨
         (∃ x, decode s.wordAtPc = .ok (.read x) ∧ 4096 < s.i.toNat + x.toNat + 1))))) ∧
    (∀ k, step s = .fault (.keyIndexOutOfRange k t) → s.CanFetch ∧
      ∃ x, (decode s.wordAtPc = .ok (.skpr x) ∨ decode s.wordAtPc = .ok (.skup x)) ∧ k = s.reg x ∧ 15 < k.toNat) ∧
    (∀ r, step s ≠ .refused r)

/-- R108, R120: once halted, every further step returns `Halted` and changes nothing but the tick's pieces. -/
def Obligations.HaltedStaysHalted : Prop :=
  ∀ (s : State) (n : Nat), s.CanFetch → s.wordAtPc = 0x0000#16 →
    ∃ t, Host.Core.run Sys2Proof.core (n + 1) s = .next t ∧ t.result = .halted ∧ t.pc = s.pc ∧ t.mem = s.mem ∧
      Frame s t [] tickParts

/-- R102, R233: in a step that is not paused and does not execute `Loadd`, `DT` falls by at most one, and by one exactly
where at least 16 milliseconds passed since the last tick. -/
def Obligations.DelayCounterFallsByTheTick : Prop :=
  ∀ s t : State, step s = .next t → s.paused = false → (∀ x, decode s.wordAtPc ≠ .ok (.loadd x)) →
    (s.nextNow - s.lastTick ≥ 16000000 → t.dt.toNat = s.dt.toNat - 1 ∧ t.lastTick = s.nextNow) ∧
    (s.nextNow - s.lastTick < 16000000 → t.dt = s.dt ∧ t.lastTick = s.lastTick)

/-- R102 (b): whatever steps, Host actions and pacing a session makes, the tick does not move while less than 16
milliseconds have passed since the last one. The premise is an invariant. -/
def Obligations.NoTickWithinInterval : Prop :=
  ∀ (es : List Event) (s t : State), s.Inv → runEvents es s = .next t → t.clock - s.lastTick < 16000000 →
    t.lastTick = s.lastTick

/-! ## Invariants -/

/-- Every step keeps the invariant: canonical memory, a kept ROM that fits, recorded times not later than the clock. -/
def Obligations.StepKeepsInv : Prop :=
  ∀ s t : State, s.Inv → step s = .next t → t.Inv

/-- R25: every step keeps `pc` at most 0x10FE and every return address at most 0x1000. -/
def Obligations.StepKeepsAddressBounds : Prop :=
  ∀ s t : State, s.AddressesBounded → step s = .next t → t.AddressesBounded

/-- Whole sessions, Host actions and pacing included, keep both invariants. -/
def Obligations.SessionKeepsInvariants : Prop :=
  ∀ (es : List Event) (s t : State), s.Inv → s.AddressesBounded → runEvents es s = .next t →
    t.Inv ∧ t.AddressesBounded

/-- Both invariants hold at reset and in every state that `create` builds. -/
def Obligations.ResetMeetsInvariants : Prop :=
  State.reset.Inv ∧ State.reset.AddressesBounded ∧
  ∀ (rom : List Byte) (now : Nat) (s : State), create rom now = .ok s → s.Inv ∧ s.AddressesBounded

/-! ## Whole-machine rules -/

/-- R35, R36, R239: no step writes `KEY`, `paused`, the kept ROM or the rate controller's `boundary`. -/
def Obligations.StepLeavesHostState : Prop :=
  ∀ s t : State, step s = .next t →
    t.key = s.key ∧ t.paused = s.paused ∧ t.rom = s.rom ∧ t.boundary = s.boundary

/-- R22, R26, R28, R52, R184: which instructions write each piece of state that is not a data register; no instruction
writes what is not named here. -/
def Obligations.WritersOfEachPiece : Prop :=
  ∀ (i : Instr) (s t : State), exec i s = .next t →
    ((∀ x y n, i ≠ .draw x y n) → i ≠ .clr → t.fb = s.fb) ∧
    ((∀ x, i ≠ .bcd x) → (∀ x, i ≠ .stor x) → ∀ a, t.readByte a = s.readByte a) ∧
    ((∀ nnn, i ≠ .call nnn) → i ≠ .rts → t.stack = s.stack) ∧
    ((∀ x, i ≠ .loadd x) → t.dt = s.dt) ∧
    ((∀ nnn, i ≠ .loadI nnn) → (∀ x, i ≠ .addi x) → (∀ x, i ≠ .ldspr x) → (∀ x, i ≠ .stor x) → (∀ x, i ≠ .read x) →
      t.i = s.i) ∧
    ((∀ x kk, i ≠ .rand x kk) → t.randDraws = s.randDraws) ∧
    t.key = s.key ∧ t.paused = s.paused ∧ t.lastTick = s.lastTick ∧ t.boundary = s.boundary ∧ t.rom = s.rom ∧
    t.clock = s.clock ∧ t.clockReads = s.clockReads

/-- R21: an instruction writes no data register but its destinations; register 15 is written by an instruction that does
not name it as destination only where the instruction is `Addr`, `Shr`, `Shl` or `Draw`. -/
def Obligations.WritersOfRegisters : Prop :=
  (∀ (i : Instr) (s t : State), exec i s = .next t → ∀ r, r ∉ destinations i → t.reg r = s.reg r) ∧
  (∀ i : Instr, 0xF#4 ∈ destinations i →
    (∃ x y, i = .addr x y) ∨ (∃ x y, i = .shr x y) ∨ (∃ x y, i = .shl x y) ∨ (∃ x y n, i = .draw x y n) ∨
    (∃ kk, i = .load 0xF kk) ∨ (∃ kk, i = .add 0xF kk) ∨ (∃ kk, i = .rand 0xF kk) ∨ (∃ y, i = .move 0xF y) ∨
    (∃ y, i = .or 0xF y) ∨ (∃ y, i = .and 0xF y) ∨ (∃ y, i = .xor 0xF y) ∨ (∃ y, i = .sub 0xF y) ∨ i = .moved 0xF ∨
    i = .keyd 0xF ∨ i = .read 0xF)

/-- R105: which step yields which outcome. -/
def Obligations.OutcomeOfEachInstruction : Prop :=
  ∀ (i : Instr) (s t : State), exec i s = .next t →
    (t.result = .continueRedraw ↔ i = .clr ∨ ∃ x y n, i = .draw x y n) ∧
    (t.result = .selfLoop ↔ jumpTarget? i s = some s.pc) ∧
    (t.result = .halted ↔ i = .sys 0) ∧
    ((∃ e, t.result = .error e) →
      (∃ nnn, i = .sys nnn ∧ nnn ≠ 0) ∨ (i = .rts ∧ s.stack = []) ∨ (∃ x, i = .ldspr x ∧ 15 < (s.reg x).toNat))

/-! ## Group 0x0 (41_system_display.md) -/

/-- R120: `Sys(0)` halts without advancing `pc`; any other value is the error `UnimplementedSysCall(nnn)`. That the error
is a next state is the model's form (log 7), and so is the error on the two ill-formed values 0x0E0 and 0x0EE (log 18). -/
def Obligations.SysHaltsOrErrors : Prop :=
  (∀ nnn : Addr12, nnn ≠ 0x0E0#12 → nnn ≠ 0x0EE#12 → EncodedAs (.sys nnn) nnn.toNat) ∧
  ∀ s : State,
    (∃ t, exec (.sys 0) s = .next t ∧ t.result = .halted ∧ t.pc = s.pc ∧ t.mem = s.mem ∧ Frame s t [] []) ∧
    (∀ nnn : Addr12, nnn ≠ 0 → ∃ t, exec (.sys nnn) s = .next t ∧ t.result = .error (.unimplementedSysCall nnn) ∧
      t.pc = s.pc ∧ t.mem = s.mem ∧ Frame s t [] [])

/-- R121: `Clr` leaves every pixel `false`. -/
def Obligations.ClrClearsScreen : Prop :=
  EncodedAs .clr 0x00E0 ∧ ∀ s : State, ∃ t, exec .clr s = .next t ∧ (∀ r c, pixel t.fb r c = false) ∧ t.pc = s.pc + 2#16 ∧
    t.result = .continueRedraw ∧ Frame s t [] [.fb]

/-- R122: `Rts` sets `pc` to the popped value; on the empty stack it is the error `ReturnFromEmptyStack`. That
the error is a next state is the model's form (log 7). -/
def Obligations.RtsPopsOrErrors : Prop :=
  EncodedAs .rts 0x00EE ∧
  (∀ (s : State) (target : Word) (rest : List Word), s.stack = target :: rest →
    ∃ t, exec .rts s = .next t ∧ t.pc = target ∧ t.stack = rest ∧ t.result = .cont ∧ Frame s t [] [.stack]) ∧
  (∀ s : State, s.stack = [] →
    ∃ t, exec .rts s = .next t ∧ t.result = .error .returnFromEmptyStack ∧ t.pc = s.pc ∧ Frame s t [] [])

/-! ## Jumps and calls (42_jumps_calls.md) -/

/-- R131: `Jump`, with the self-loop test of R130. -/
def Obligations.JumpGoesToTarget : Prop :=
  ∀ (nnn : Addr12) (s : State), EncodedAs (.jump nnn) (0x1000 + nnn.toNat) ∧
    ∃ t, exec (.jump nnn) s = .next t ∧ t.pc.toNat = nnn.toNat ∧
    t.result = (if s.pc.toNat = nnn.toNat then .selfLoop else .cont) ∧ Frame s t [] []

/-- R132: `Call` pushes `(pc + 2) mod 65536`, but nothing on a self-loop. -/
def Obligations.CallPushesReturnAddress : Prop :=
  ∀ (nnn : Addr12) (s : State), EncodedAs (.call nnn) (0x2000 + nnn.toNat) ∧
    ∃ t, exec (.call nnn) s = .next t ∧ t.pc.toNat = nnn.toNat ∧
    (if s.pc.toNat = nnn.toNat then t.result = .selfLoop ∧ t.stack = s.stack
     else t.result = .cont ∧ ∃ ret, t.stack = ret :: s.stack ∧ ret.toNat = (s.pc.toNat + 2) % 65536) ∧
    Frame s t [] [.stack]

/-- R133: `JumpI` goes to `(nnn + V[0]) mod 65536`, which never wraps. -/
def Obligations.JumpIGoesToIndexedTarget : Prop :=
  ∀ (nnn : Addr12) (s : State), EncodedAs (.jumpI nnn) (0xB000 + nnn.toNat) ∧
    ∃ t, exec (.jumpI nnn) s = .next t ∧
    t.pc.toNat = nnn.toNat + (s.reg 0).toNat ∧
    t.result = (if s.pc.toNat = nnn.toNat + (s.reg 0).toNat then .selfLoop else .cont) ∧ Frame s t [] []

/-- R132, R122, R134: an `Rts` that finds the stack a `Call` left returns to the instruction after the `Call`, with the
stack as it was before. -/
def Obligations.RtsUndoesCall : Prop :=
  ∀ (nnn : Addr12) (s t u : State), exec (.call nnn) s = .next t → t.result = .cont → u.stack = t.stack →
    ∃ v, exec .rts u = .next v ∧ v.pc = s.pc + 2#16 ∧ v.stack = s.stack ∧ v.result = .cont

/-! ## Skips (43_skips.md) -/

/-- R141 to R144: the four compare-and-skip instructions. -/
def Obligations.CompareAndSkip : Prop :=
  ∀ (x y : Nibble) (kk : Byte) (s : State),
    EncodedAs (.ske x kk) (0x3000 + 256 * x.toNat + kk.toNat) ∧
    EncodedAs (.skne x kk) (0x4000 + 256 * x.toNat + kk.toNat) ∧
    EncodedAs (.skre x y) (0x5000 + 256 * x.toNat + 16 * y.toNat) ∧
    EncodedAs (.skrne x y) (0x9000 + 256 * x.toNat + 16 * y.toNat) ∧
    (∃ t, exec (.ske x kk) s = .next t ∧ t.pc = (if s.reg x = kk then s.pc + 4#16 else s.pc + 2#16) ∧
      t.result = .cont ∧ Frame s t [] []) ∧
    (∃ t, exec (.skne x kk) s = .next t ∧ t.pc = (if s.reg x = kk then s.pc + 2#16 else s.pc + 4#16) ∧
      t.result = .cont ∧ Frame s t [] []) ∧
    (∃ t, exec (.skre x y) s = .next t ∧ t.pc = (if s.reg x = s.reg y then s.pc + 4#16 else s.pc + 2#16) ∧
      t.result = .cont ∧ Frame s t [] []) ∧
    (∃ t, exec (.skrne x y) s = .next t ∧ t.pc = (if s.reg x = s.reg y then s.pc + 2#16 else s.pc + 4#16) ∧
      t.result = .cont ∧ Frame s t [] [])

/-- R106: a taken skip, of any of the six skip instructions, adds 4 whatever the skipped word is: two machines that differ
in what their memory holds beyond the skip's own two bytes take the same skip. -/
def Obligations.SkippedWordIsNotFetched : Prop :=
  ∀ (s u : State) (i : Instr), s.CanFetch → u = { s with mem := u.mem } → u.wordAtPc = s.wordAtPc →
    decode s.wordAtPc = .ok i →
    ((∃ x kk, i = .ske x kk ∧ s.reg x = kk) ∨ (∃ x kk, i = .skne x kk ∧ s.reg x ≠ kk) ∨
     (∃ x y, i = .skre x y ∧ s.reg x = s.reg y) ∨ (∃ x y, i = .skrne x y ∧ s.reg x ≠ s.reg y) ∨
     (∃ x, ∃ h : (s.reg x).toNat < Config.nKeys, i = .skpr x ∧ s.key[(s.reg x).toNat] = true) ∨
     (∃ x, ∃ h : (s.reg x).toNat < Config.nKeys, i = .skup x ∧ s.key[(s.reg x).toNat] = false)) →
    ∃ t v, step s = .next t ∧ step u = .next v ∧ t.pc = s.pc + 4#16 ∧ v.pc = s.pc + 4#16 ∧
      t.result = .cont ∧ v.result = .cont

/-! ## Arithmetic and logic (44_alu.md) -/

/-- R151 to R154: `Move`, `Or`, `And`, `Xor`, bit by bit; no flag. -/
def Obligations.MoveAndLogic : Prop :=
  ∀ (x y : Nibble) (s : State),
    EncodedAs (.move x y) (0x8000 + 256 * x.toNat + 16 * y.toNat) ∧
    EncodedAs (.or x y) (0x8001 + 256 * x.toNat + 16 * y.toNat) ∧
    EncodedAs (.and x y) (0x8002 + 256 * x.toNat + 16 * y.toNat) ∧
    EncodedAs (.xor x y) (0x8003 + 256 * x.toNat + 16 * y.toNat) ∧
    (∃ t, exec (.move x y) s = .next t ∧ t.reg x = s.reg y ∧ t.pc = s.pc + 2#16 ∧ t.result = .cont ∧
      Frame s t [x] []) ∧
    (∃ t, exec (.or x y) s = .next t ∧
      (∀ k < 8, (t.reg x).getLsbD k = ((s.reg x).getLsbD k || (s.reg y).getLsbD k)) ∧
      t.pc = s.pc + 2#16 ∧ t.result = .cont ∧ Frame s t [x] []) ∧
    (∃ t, exec (.and x y) s = .next t ∧
      (∀ k < 8, (t.reg x).getLsbD k = ((s.reg x).getLsbD k && (s.reg y).getLsbD k)) ∧
      t.pc = s.pc + 2#16 ∧ t.result = .cont ∧ Frame s t [x] []) ∧
    (∃ t, exec (.xor x y) s = .next t ∧
      (∀ k < 8, (t.reg x).getLsbD k = ((s.reg x).getLsbD k ^^ (s.reg y).getLsbD k)) ∧
      t.pc = s.pc + 2#16 ∧ t.result = .cont ∧ Frame s t [x] [])

/-- R155, R159: `Addr`. With `x` = 15 the final `V[15]` is the flag under `flag_last` and the sum under `flag_first`. -/
def Obligations.AddrAddsWithCarry : Prop :=
  ∀ (x y : Nibble) (s : State), EncodedAs (.addr x y) (0x8004 + 256 * x.toNat + 16 * y.toNat) ∧
    ∃ t, exec (.addr x y) s = .next t ∧
    (let sum := (s.reg x).toNat + (s.reg y).toNat
     let carry := if 255 < sum then 1 else 0
     if x = 0xF#4 then (t.reg 0xF#4).toNat = (if Config.flagOrder = .flagLast then carry else sum % 256)
     else (t.reg x).toNat = sum % 256 ∧ (t.reg 0xF#4).toNat = carry) ∧
    t.pc = s.pc + 2#16 ∧ t.result = .cont ∧ Frame s t [x, 0xF#4] []

/-- R156: `Sub` wraps and writes no flag. -/
def Obligations.SubWrapsWithoutFlag : Prop :=
  ∀ (x y : Nibble) (s : State), EncodedAs (.sub x y) (0x8005 + 256 * x.toNat + 16 * y.toNat) ∧
    ∃ t, exec (.sub x y) s = .next t ∧
    (t.reg x).toNat = (256 + (s.reg x).toNat - (s.reg y).toNat) % 256 ∧
    t.pc = s.pc + 2#16 ∧ t.result = .cont ∧ Frame s t [x] []

/-- R157, R158, R159: the two-register shifts. `V[y]` receives the shifted `V[x]`, the flag is the end bit of the old
`V[y]`; with `y` = 15 `FLAG_ORDER` decides. -/
def Obligations.ShiftsUseTwoRegisters : Prop :=
  ∀ (x y : Nibble) (s : State),
    EncodedAs (.shr x y) (0x8006 + 256 * x.toNat + 16 * y.toNat) ∧
    EncodedAs (.shl x y) (0x800E + 256 * x.toNat + 16 * y.toNat) ∧
    (∃ t, exec (.shr x y) s = .next t ∧
      (let shifted := (s.reg x).toNat / 2
       let flag := (s.reg y).toNat % 2
       if y = 0xF#4 then (t.reg 0xF#4).toNat = (if Config.flagOrder = .flagLast then flag else shifted)
       else (t.reg y).toNat = shifted ∧ (t.reg 0xF#4).toNat = flag) ∧
      t.pc = s.pc + 2#16 ∧ t.result = .cont ∧ Frame s t [y, 0xF#4] []) ∧
    (∃ t, exec (.shl x y) s = .next t ∧
      (let shifted := (s.reg x).toNat * 2 % 256
       let flag := (s.reg y).toNat / 128
       if y = 0xF#4 then (t.reg 0xF#4).toNat = (if Config.flagOrder = .flagLast then flag else shifted)
       else (t.reg y).toNat = shifted ∧ (t.reg 0xF#4).toNat = flag) ∧
      t.pc = s.pc + 2#16 ∧ t.result = .cont ∧ Frame s t [y, 0xF#4] [])

/-! ## Immediates and random (45_immediate_random.md) -/

/-- R170, R171: `Load` and `Add`; no flag, also not on wrap. -/
def Obligations.LoadAndAddImmediate : Prop :=
  ∀ (x : Nibble) (kk : Byte) (s : State),
    EncodedAs (.load x kk) (0x6000 + 256 * x.toNat + kk.toNat) ∧
    EncodedAs (.add x kk) (0x7000 + 256 * x.toNat + kk.toNat) ∧
    (∃ t, exec (.load x kk) s = .next t ∧ t.reg x = kk ∧ t.pc = s.pc + 2#16 ∧ t.result = .cont ∧ Frame s t [x] []) ∧
    (∃ t, exec (.add x kk) s = .next t ∧ (t.reg x).toNat = ((s.reg x).toNat + kk.toNat) % 256 ∧
      t.pc = s.pc + 2#16 ∧ t.result = .cont ∧ Frame s t [x] [])

/-- R172, R203: `LoadI` and `Addi` write the address register; `Addi` wraps modulo 65536 and writes no flag. -/
def Obligations.AddressRegisterLoadAndAdd : Prop :=
  ∀ s : State,
    (∀ nnn : Addr12, EncodedAs (.loadI nnn) (0xA000 + nnn.toNat) ∧
      ∃ t, exec (.loadI nnn) s = .next t ∧ t.i.toNat = nnn.toNat ∧ t.pc = s.pc + 2#16 ∧
      t.result = .cont ∧ Frame s t [] [.i]) ∧
    (∀ x : Nibble, EncodedAs (.addi x) (0xF01E + 256 * x.toNat) ∧
      ∃ t, exec (.addi x) s = .next t ∧ t.i.toNat = (s.i.toNat + (s.reg x).toNat) % 65536 ∧
      t.pc = s.pc + 2#16 ∧ t.result = .cont ∧ Frame s t [] [.i])

/-- R173: `Rand` masks the free byte that `draw8()` returns, and the next draw is another one. -/
def Obligations.RandMasksTheDraw : Prop :=
  ∀ (x : Nibble) (kk : Byte) (s : State), EncodedAs (.rand x kk) (0xC000 + 256 * x.toNat + kk.toNat) ∧
    ∃ t, exec (.rand x kk) s = .next t ∧
    t.reg x = Config.randomByte s.randDraws &&& kk ∧ t.reg x &&& ~~~kk = 0 ∧ t.randDraws = s.randDraws + 1 ∧
    t.pc = s.pc + 2#16 ∧ t.result = .cont ∧ Frame s t [x] [.randDraws]

/-! ## Draw (46_draw.md) -/

/-- R180, R181, R182: where the sprite's rows lie inside memory (always for `n` = 0), `Draw` inverts exactly the pixels a
sprite bit covers, and `V[15]` says whether one of them was set. -/
def Obligations.DrawInvertsCoveredPixels : Prop :=
  ∀ (x y n : Nibble) (s : State), n = 0 ∨ s.dataAddr 0 + n.toNat ≤ 4096 →
    EncodedAs (.draw x y n) (0xD000 + 256 * x.toNat + 16 * y.toNat + n.toNat) ∧
    ∃ t, exec (.draw x y n) s = .next t ∧
      (∀ r c, SpriteCovers s (s.dataAddr 0) (s.reg x) (s.reg y) n.toNat r c → pixel t.fb r c = !pixel s.fb r c) ∧
      (∀ r c, ¬ SpriteCovers s (s.dataAddr 0) (s.reg x) (s.reg y) n.toNat r c → pixel t.fb r c = pixel s.fb r c) ∧
      ((∃ r c, SpriteCovers s (s.dataAddr 0) (s.reg x) (s.reg y) n.toNat r c ∧ pixel s.fb r c = true) →
        t.reg 0xF#4 = 1) ∧
      ((¬ ∃ r c, SpriteCovers s (s.dataAddr 0) (s.reg x) (s.reg y) n.toNat r c ∧ pixel s.fb r c = true) →
        t.reg 0xF#4 = 0) ∧
      t.pc = s.pc + 2#16 ∧ t.result = .continueRedraw ∧ Frame s t [0xF#4] [.fb]

/-- R183: a second `Draw` that reads the same coordinates and the same sprite bytes restores the framebuffer, and its
flag is 1 exactly where some covered pixel was `false` before the first. -/
def Obligations.DrawTwiceRestores : Prop :=
  ∀ (x y n : Nibble) (s t u : State), exec (.draw x y n) s = .next t → u.fb = t.fb → u.i = s.i →
    u.reg x = s.reg x → u.reg y = s.reg y → (∀ a, u.readByte a = s.readByte a) →
    ∃ v, exec (.draw x y n) u = .next v ∧ v.fb = s.fb ∧
      (v.reg 0xF#4 = 1 ↔
        ∃ r c, SpriteCovers s (s.dataAddr 0) (s.reg x) (s.reg y) n.toNat r c ∧ pixel s.fb r c = false)

/-! ## Keys (47_keys.md) -/

/-- R190, R191: `Skpr` and `Skup` on a key code 0 to 15. -/
def Obligations.KeySkips : Prop :=
  ∀ (x : Nibble) (s : State) (h : (s.reg x).toNat < Config.nKeys),
    EncodedAs (.skpr x) (0xE09E + 256 * x.toNat) ∧ EncodedAs (.skup x) (0xE0A1 + 256 * x.toNat) ∧
    (∃ t, exec (.skpr x) s = .next t ∧
      t.pc = (if s.key[(s.reg x).toNat] = true then s.pc + 4#16 else s.pc + 2#16) ∧
      t.result = .cont ∧ Frame s t [] []) ∧
    (∃ t, exec (.skup x) s = .next t ∧
      t.pc = (if s.key[(s.reg x).toNat] = true then s.pc + 2#16 else s.pc + 4#16) ∧
      t.result = .cont ∧ Frame s t [] [])

/-- R194: a key code above 15 is the model fault `KeyIndexOutOfRange(V[x])`, which changes nothing. -/
def Obligations.KeyCodeOutOfRangeFaults : Prop :=
  ∀ (x : Nibble) (s : State), 15 < (s.reg x).toNat →
    exec (.skpr x) s = .fault (.keyIndexOutOfRange (s.reg x) s) ∧
    exec (.skup x) s = .fault (.keyIndexOutOfRange (s.reg x) s)

/-- R192: `Keyd` stores the least pressed code and advances; while no key is pressed it changes nothing. -/
def Obligations.KeydWaitsThenStores : Prop :=
  ∀ (x : Nibble) (s : State),
    EncodedAs (.keyd x) (0xF00A + 256 * x.toNat) ∧
    (∀ k : Fin Config.nKeys, s.key[k] = true → (∀ j : Fin Config.nKeys, j < k → s.key[j] = false) →
      ∃ t, exec (.keyd x) s = .next t ∧ (t.reg x).toNat = k.val ∧ t.pc = s.pc + 2#16 ∧ t.result = .cont ∧
        Frame s t [x] []) ∧
    ((∀ k : Fin Config.nKeys, s.key[k] = false) →
      ∃ t, exec (.keyd x) s = .next t ∧ t.pc = s.pc ∧ t.result = .cont ∧ Frame s t [] [])

/-! ## Group 0xF (48_timers_index_memory.md) -/

/-- R200, R201, R202: `Moved` reads `DT`, `Loadd` writes it, `Loads` has no effect. -/
def Obligations.DelayCounterAndSound : Prop :=
  ∀ (x : Nibble) (s : State),
    EncodedAs (.moved x) (0xF007 + 256 * x.toNat) ∧ EncodedAs (.loadd x) (0xF015 + 256 * x.toNat) ∧
    EncodedAs (.loads x) (0xF018 + 256 * x.toNat) ∧
    (∃ t, exec (.moved x) s = .next t ∧ t.reg x = s.dt ∧ t.pc = s.pc + 2#16 ∧ t.result = .cont ∧ Frame s t [x] []) ∧
    (∃ t, exec (.loadd x) s = .next t ∧ t.dt = s.reg x ∧ t.pc = s.pc + 2#16 ∧ t.result = .cont ∧
      Frame s t [] [.dt]) ∧
    (∃ t, exec (.loads x) s = .next t ∧ t.pc = s.pc + 2#16 ∧ t.result = .cont ∧ Frame s t [] [])

/-- R102 (c), R200, R201: the tick comes before the instruction: `Moved` reads the value after it, `Loadd` stores a value
it does not touch. -/
def Obligations.TickPrecedesInstruction : Prop :=
  ∀ (s : State) (x : Nibble), s.CanFetch →
    (decode s.wordAtPc = .ok (.moved x) →
      ∃ t, step s = .next t ∧
        (t.reg x).toNat = (if s.nextNow - s.lastTick ≥ 16000000 then s.dt.toNat - 1 else s.dt.toNat)) ∧
    (decode s.wordAtPc = .ok (.loadd x) → ∃ t, step s = .next t ∧ t.dt = s.reg x)

/-- R204: `Ldspr` points `I` at the glyph, 5 bytes a glyph from address 0; above 15 it is the error
`SpriteIndexOutOfRange(g)`. That the error is a next state is the model's form (log 7). -/
def Obligations.LdsprPointsAtGlyph : Prop :=
  ∀ (x : Nibble) (s : State),
    EncodedAs (.ldspr x) (0xF029 + 256 * x.toNat) ∧
    ((s.reg x).toNat ≤ 15 → ∃ t, exec (.ldspr x) s = .next t ∧ t.i.toNat = 5 * (s.reg x).toNat ∧
      t.pc = s.pc + 2#16 ∧ t.result = .cont ∧ Frame s t [] [.i]) ∧
    (15 < (s.reg x).toNat → ∃ t, exec (.ldspr x) s = .next t ∧
      t.result = .error (.spriteIndexOutOfRange (s.reg x)) ∧ t.pc = s.pc ∧ Frame s t [] [])

/-- R205: `Bcd` stores the hundreds, tens and ones digit at `I`, `I + 1`, `I + 2`. The premise on memory is an
invariant. -/
def Obligations.BcdStoresDigits : Prop :=
  ∀ (x : Nibble) (s : State), Memory.wf s.mem = true → s.dataAddr 2 < 4096 →
    EncodedAs (.bcd x) (0xF033 + 256 * x.toNat) ∧
    ∃ t, exec (.bcd x) s = .next t ∧
      (t.readByte (s.dataAddr 0)).toNat = (s.reg x).toNat / 100 ∧
      (t.readByte (s.dataAddr 1)).toNat = (s.reg x).toNat / 10 % 10 ∧
      (t.readByte (s.dataAddr 2)).toNat = (s.reg x).toNat % 10 ∧
      (∀ a, a < s.dataAddr 0 ∨ s.dataAddr 2 < a → t.readByte a = s.readByte a) ∧
      t.pc = s.pc + 2#16 ∧ t.result = .cont ∧ Frame s t [] [.mem]

/-- R206, R207: `Stor` stores `V[0] .. V[x]` at `I .. I + x`, and advances `I` where `MEMX_I_INCREMENT` says so. The
premise on memory is an invariant. -/
def Obligations.StorStoresRegisters : Prop :=
  ∀ (x : Nibble) (s : State), Memory.wf s.mem = true → s.dataAddr x.toNat < 4096 →
    EncodedAs (.stor x) (0xF055 + 256 * x.toNat) ∧
    ∃ t, exec (.stor x) s = .next t ∧
      (∀ k : Nibble, k ≤ x → t.readByte (s.dataAddr k.toNat) = s.reg k) ∧
      (∀ a, a < s.dataAddr 0 ∨ s.dataAddr x.toNat < a → t.readByte a = s.readByte a) ∧
      t.i.toNat = (if Config.memxIIncrement = true then (s.i.toNat + x.toNat + 1) % 65536 else s.i.toNat) ∧
      t.pc = s.pc + 2#16 ∧ t.result = .cont ∧ Frame s t [] [.mem, .i]

/-- R206, R208: `Read` loads `V[0] .. V[x]` from `I .. I + x`, and advances `I` where `MEMX_I_INCREMENT` says so. -/
def Obligations.ReadLoadsRegisters : Prop :=
  ∀ (x : Nibble) (s : State), s.dataAddr x.toNat < 4096 →
    EncodedAs (.read x) (0xF065 + 256 * x.toNat) ∧
    ∃ t, exec (.read x) s = .next t ∧
      (∀ k : Nibble, k ≤ x → t.reg k = s.readByte (s.dataAddr k.toNat)) ∧
      (∀ k : Nibble, x < k → t.reg k = s.reg k) ∧
      t.i.toNat = (if Config.memxIIncrement = true then (s.i.toNat + x.toNat + 1) % 65536 else s.i.toNat) ∧
      t.pc = s.pc + 2#16 ∧ t.result = .cont ∧ Frame s t (destinations (.read x)) [.i]

/-- R206 to R208: a `Read` at the address a `Stor` used gives back every register it stored. The premise on memory is an
invariant. -/
def Obligations.ReadAfterStor : Prop :=
  ∀ (x : Nibble) (s t u : State), Memory.wf s.mem = true → exec (.stor x) s = .next t → u.i = s.i →
    u.mem = t.mem → ∃ v, exec (.read x) u = .next v ∧ ∀ k : Nibble, k ≤ x → v.reg k = s.reg k

/-- R56, R180, R205, R207, R208: an access of `Draw`, `Bcd`, `Stor` or `Read` that leaves memory is the fault
`MemoryOutOfRange(I)`, and no effect is kept. -/
def Obligations.AccessOutsideFaults : Prop :=
  ∀ (x y n : Nibble) (s : State),
    (n ≠ 0 → 4096 < s.dataAddr 0 + n.toNat → exec (.draw x y n) s = .fault (.memoryOutOfRange s.i s)) ∧
    (4096 < s.dataAddr 0 + 3 → exec (.bcd x) s = .fault (.memoryOutOfRange s.i s)) ∧
    (4096 < s.dataAddr 0 + x.toNat + 1 →
      exec (.stor x) s = .fault (.memoryOutOfRange s.i s) ∧ exec (.read x) s = .fault (.memoryOutOfRange s.i s))

/-! ## Creation, reset, Host (10_state.md, 60_exceptions.md, 70_reset_and_hazards.md) -/

/-- R45: the values the spec gives for reset. -/
def Obligations.ResetValues : Prop :=
  (∀ x, State.reset.reg x = 0x00#8) ∧ State.reset.i = 0x0000#16 ∧ State.reset.pc = 0x200#16 ∧
  State.reset.stack = [] ∧ State.reset.dt = 0x00#8 ∧ (∀ r c, pixel State.reset.fb r c = false) ∧
  (∀ k : Fin Config.nKeys, State.reset.key[k] = false) ∧ State.reset.paused = false

/-- R32, R250, R255: `create` refuses a ROM longer than 3584 bytes; otherwise memory is the font at 0, the ROM at 0x200
and zero elsewhere, and everything else is at its value after creation. What addresses that memory does not list read as,
those from 4096 on included, is the model's (log 10). -/
def Obligations.CreateBuildsImage : Prop :=
  ∀ (rom : List Byte) (now : Nat),
    (3584 < rom.length → create rom now = .error (.romTooLong rom.length)) ∧
    (rom.length ≤ 3584 → ∃ s, create rom now = .ok s ∧
      (∀ j, (h : j < rom.length) → s.readByte (0x200 + j) = rom[j]) ∧
      (∀ k, (h : k < Config.font.length) → s.readByte k = Config.font[k]) ∧
      (∀ a, Config.font.length ≤ a → a < 0x200 ∨ 0x200 + rom.length ≤ a → s.readByte a = 0x00#8) ∧
      s.rom = rom ∧ s.lastTick = now ∧ s.paused = false ∧ s.pc = 0x200#16 ∧ s.i = 0 ∧ s.dt = 0 ∧ s.stack = [] ∧
      (∀ x, s.reg x = 0) ∧ (∀ r c, pixel s.fb r c = false) ∧ (∀ k : Fin Config.nKeys, s.key[k] = false))

/-- R251: `reset()` brings back the state after creation, with memory what `create` built from the kept ROM, but leaves
`paused`, `lastTick` and `boundary`. -/
def Obligations.HostResetRebuilds : Prop :=
  ∀ (rom : List Byte) (now : Nat) (c s : State), create rom now = .ok c → s.rom = rom →
    let t := hostReset s
    (∀ x, t.reg x = 0 ∧ c.reg x = 0) ∧ t.i = 0 ∧ t.dt = 0 ∧ t.stack = [] ∧ t.pc = 0x200#16 ∧
    (∀ r c, pixel t.fb r c = false) ∧ (∀ k : Fin Config.nKeys, t.key[k] = false) ∧
    (∀ a, t.readByte a = c.readByte a) ∧ t.i = c.i ∧ t.dt = c.dt ∧ t.stack = c.stack ∧ t.pc = c.pc ∧ t.fb = c.fb ∧
    t.key = c.key ∧ t.rom = rom ∧
    t.paused = s.paused ∧ t.lastTick = s.lastTick ∧ t.boundary = s.boundary

/-- R234, R235: `pace` sleeps for the rest of the period and never for a negative time, moves `boundary` to the end of
the sleep, changes no state of the Engine and is refused for `RATE` = 0. The premise is an invariant; `RATE` = 500 with
`boundary` 0 called at 0.5 ms gives busy 0.5 ms and total 2 ms where the sleep ends exactly when asked. -/
def Obligations.PaceSleepsTheRemainder : Prop :=
  (∀ (rate : Nat) (now late : Nat) (s : State), 0 < rate → s.boundary ≤ now →
    ∃ report t, paceAt rate now late s = .ok (report, t) ∧
      report.busy = now - s.boundary ∧ report.total = t.boundary - s.boundary ∧
      t.boundary = max now (s.boundary + 1000000000 / rate) + late ∧
      t.pc = s.pc ∧ t.result = s.result ∧ Frame s t [] [.boundary, .clock, .clockReads]) ∧
  (∀ (now late : Nat) (s : State), paceAt 0 now late s = .error .rateNotPositive) ∧
  (∀ s : State, s.boundary = 0 → ∃ report t, paceAt 500 500000 0 s = .ok (report, t) ∧
    report.busy = 500000 ∧ report.total = 2000000 ∧ t.boundary = 2000000)

/-- R109: a run ends at the first step whose result is one of the driver's end conditions; what is left of the events is
not performed and cannot matter, and no step of a run that goes on met a condition. E5 and E6 are faults of the model
(log 5, log 6) and count as errors here; runs of events are the model's form (log 15). -/
def Obligations.RunEndsAtFirstEndCondition : Prop :=
  (∀ (stops : List EndCondition) (es : List Event) (s : State) (c : EndCondition) (last : Ending) (rest : List Event),
    runUntil stops es s = .ended c last rest →
    c ∈ stops ∧
    (match c with
     | .halted => ∃ t, last = .next t ∧ t.result = .halted
     | .selfLoop => ∃ t, last = .next t ∧ t.result = .selfLoop
     | .error => (∃ t e, last = .next t ∧ t.result = .error e) ∨ ∃ f, last = .fault f) ∧
    (∃ before u, es = before ++ .step :: rest ∧ runUntil stops before s = .ongoing u ∧ last = step u) ∧
    ∀ more, runUntil stops (es ++ more) s = .ended c last (rest ++ more)) ∧
  (∀ (stops : List EndCondition) (es : List Event) (s t u v : State),
    runUntil stops es s = .ongoing t → TakesStepAt stops es s u → step u = .next v →
    (EndCondition.halted ∈ stops → v.result ≠ .halted) ∧ (EndCondition.selfLoop ∈ stops → v.result ≠ .selfLoop) ∧
    (EndCondition.error ∈ stops → ∀ e, v.result ≠ .error e)) ∧
  (∀ (stops : List EndCondition) (es : List Event) (s t u : State) (f : Fault),
    runUntil stops es s = .ongoing t → TakesStepAt stops es s u → step u = .fault f → EndCondition.error ∉ stops)
end

