-- ==== Sys2Proof/Laws/Codec.lean ====
section
/-! SUPPORT. The laws of the formats (30_encoding.md R72): each field of a word laid out from its operands is the operand
it was laid out from, and a word is laid out from its own fields. -/

namespace Sys2Proof

variable (op x y n : Nibble) (kk : Byte) (nnn : Addr12) (w : Word)

/-! The bits of a word laid out. -/

theorem getLsbD_wordA (i : Nat) :
    (wordA op nnn).getLsbD i = if i < 12 then nnn.getLsbD i else op.getLsbD (i - 12) :=
  BitVec.getLsbD_append

theorem getLsbD_wordXK (i : Nat) :
    (wordXK op x kk).getLsbD i =
      if i < 8 then kk.getLsbD i else if i - 8 < 4 then x.getLsbD (i - 8) else op.getLsbD (i - 8 - 4) :=
  (BitVec.getLsbD_append (x := op ++ x) (y := kk)).trans (by rw [BitVec.getLsbD_append])

theorem getLsbD_wordXYN (i : Nat) :
    (wordXYN op x y n).getLsbD i =
      if i < 4 then n.getLsbD i
      else if i - 4 < 4 then y.getLsbD (i - 4)
      else if i - 4 - 4 < 4 then x.getLsbD (i - 4 - 4) else op.getLsbD (i - 4 - 4 - 4) :=
  (BitVec.getLsbD_append (x := op ++ x ++ y) (y := n)).trans
    (by rw [BitVec.getLsbD_append (x := op ++ x) (y := y), BitVec.getLsbD_append])

theorem getLsbD_wordOfBytes (hi lo : Byte) (i : Nat) :
    (wordOfBytes hi lo).getLsbD i = if i < 8 then lo.getLsbD i else hi.getLsbD (i - 8) :=
  BitVec.getLsbD_append

/-! Each field of a word laid out. -/

@[simp] theorem fieldOp_wordA : fieldOp (wordA op nnn) = op := by
  apply BitVec.eq_of_getLsbD_eq; intro i hi; simp [fieldOp, getLsbD_wordA, hi]

@[simp] theorem fieldNNN_wordA : fieldNNN (wordA op nnn) = nnn := by
  apply BitVec.eq_of_getLsbD_eq; intro i hi; simp [fieldNNN, getLsbD_wordA, hi]

@[simp] theorem fieldOp_wordXK : fieldOp (wordXK op x kk) = op := by
  apply BitVec.eq_of_getLsbD_eq; intro i hi; rw [fieldOp, BitVec.getLsbD_extractLsb', getLsbD_wordXK]; interval_cases i <;> rfl

@[simp] theorem fieldX_wordXK : fieldX (wordXK op x kk) = x := by
  apply BitVec.eq_of_getLsbD_eq; intro i hi; simp [fieldX, getLsbD_wordXK, hi]

@[simp] theorem fieldKK_wordXK : fieldKK (wordXK op x kk) = kk := by
  apply BitVec.eq_of_getLsbD_eq; intro i hi; simp [fieldKK, getLsbD_wordXK, hi]

@[simp] theorem fieldOp_wordXYN : fieldOp (wordXYN op x y n) = op := by
  apply BitVec.eq_of_getLsbD_eq; intro i hi; rw [fieldOp, BitVec.getLsbD_extractLsb', getLsbD_wordXYN]; interval_cases i <;> rfl

@[simp] theorem fieldX_wordXYN : fieldX (wordXYN op x y n) = x := by
  apply BitVec.eq_of_getLsbD_eq; intro i hi; rw [fieldX, BitVec.getLsbD_extractLsb', getLsbD_wordXYN]; interval_cases i <;> rfl

@[simp] theorem fieldY_wordXYN : fieldY (wordXYN op x y n) = y := by
  apply BitVec.eq_of_getLsbD_eq; intro i hi; simp [fieldY, getLsbD_wordXYN, hi]

@[simp] theorem fieldN_wordXYN : fieldN (wordXYN op x y n) = n := by
  apply BitVec.eq_of_getLsbD_eq; intro i hi; simp [fieldN, getLsbD_wordXYN, hi]

/-- Format `A`. -/
theorem wordA_fields : wordA (fieldOp w) (fieldNNN w) = w := by
  apply BitVec.eq_of_getLsbD_eq; intro i hi; rw [getLsbD_wordA]; interval_cases i <;> simp [fieldOp, fieldNNN]

/-- Formats `XK` and `X`. -/
theorem wordXK_fields : wordXK (fieldOp w) (fieldX w) (fieldKK w) = w := by
  apply BitVec.eq_of_getLsbD_eq; intro i hi; rw [getLsbD_wordXK]; interval_cases i <;> simp [fieldOp, fieldX, fieldKK]

/-- Formats `XYN` and `XY`. -/
theorem wordXYN_fields : wordXYN (fieldOp w) (fieldX w) (fieldY w) (fieldN w) = w := by
  apply BitVec.eq_of_getLsbD_eq; intro i hi; rw [getLsbD_wordXYN]; interval_cases i <;> simp [fieldOp, fieldX, fieldY, fieldN]

/-- A word laid out as its two bytes and read back is the same word (20_memory.md R51). -/
theorem wordOfBytes_bytesOfWord : wordOfBytes (w.extractLsb' 8 8) (w.extractLsb' 0 8) = w := by
  apply BitVec.eq_of_getLsbD_eq; intro i hi; rw [getLsbD_wordOfBytes]; interval_cases i <;> simp

/-! What the decoder does in each group (30_encoding.md R75). -/

variable {w}

theorem decode_of_group_0 (h : fieldOp w = 0x0#4) :
    decode w =
      .ok (decodeGroup0 w) := by
  simp [decode, h]

theorem decode_of_group_1 (h : fieldOp w = 0x1#4) :
    decode w =
      .ok (.jump (fieldNNN w)) := by
  simp [decode, h]

theorem decode_of_group_2 (h : fieldOp w = 0x2#4) :
    decode w =
      .ok (.call (fieldNNN w)) := by
  simp [decode, h]

theorem decode_of_group_3 (h : fieldOp w = 0x3#4) :
    decode w =
      .ok (.ske (fieldX w) (fieldKK w)) := by
  simp [decode, h]

theorem decode_of_group_4 (h : fieldOp w = 0x4#4) :
    decode w =
      .ok (.skne (fieldX w) (fieldKK w)) := by
  simp [decode, h]

theorem decode_of_group_5 (h : fieldOp w = 0x5#4) :
    decode w =
      if fieldN w = 0x0#4 then .ok (.skre (fieldX w) (fieldY w)) else .error (.unrecognizedSuffix w) := by
  simp [decode, h]

theorem decode_of_group_6 (h : fieldOp w = 0x6#4) :
    decode w =
      .ok (.load (fieldX w) (fieldKK w)) := by
  simp [decode, h]

theorem decode_of_group_7 (h : fieldOp w = 0x7#4) :
    decode w =
      .ok (.add (fieldX w) (fieldKK w)) := by
  simp [decode, h]

theorem decode_of_group_8 (h : fieldOp w = 0x8#4) :
    decode w =
      decodeGroup8 w := by
  simp [decode, h]

theorem decode_of_group_9 (h : fieldOp w = 0x9#4) :
    decode w =
      if fieldN w = 0x0#4 then .ok (.skrne (fieldX w) (fieldY w)) else .error (.unrecognizedSuffix w) := by
  simp [decode, h]

theorem decode_of_group_A (h : fieldOp w = 0xA#4) :
    decode w =
      .ok (.loadI (fieldNNN w)) := by
  simp [decode, h]

theorem decode_of_group_B (h : fieldOp w = 0xB#4) :
    decode w =
      .ok (.jumpI (fieldNNN w)) := by
  simp [decode, h]

theorem decode_of_group_C (h : fieldOp w = 0xC#4) :
    decode w =
      .ok (.rand (fieldX w) (fieldKK w)) := by
  simp [decode, h]

theorem decode_of_group_D (h : fieldOp w = 0xD#4) :
    decode w =
      .ok (.draw (fieldX w) (fieldY w) (fieldN w)) := by
  simp [decode, h]

theorem decode_of_group_E (h : fieldOp w = 0xE#4) :
    decode w =
      decodeGroupE w := by
  simp [decode, h]

theorem decode_of_group_F (h : fieldOp w = 0xF#4) :
    decode w =
      decodeGroupF w := by
  simp [decode, h]

/-- A nibble is one of sixteen. -/
theorem nibble_cases (x : Nibble) :
    x = 0x0#4 ∨ x = 0x1#4 ∨ x = 0x2#4 ∨ x = 0x3#4 ∨ x = 0x4#4 ∨ x = 0x5#4 ∨ x = 0x6#4 ∨ x = 0x7#4 ∨ x = 0x8#4 ∨
      x = 0x9#4 ∨ x = 0xA#4 ∨ x = 0xB#4 ∨ x = 0xC#4 ∨ x = 0xD#4 ∨ x = 0xE#4 ∨ x = 0xF#4 := by
  revert x; decide

/-! The number of a word laid out. -/

theorem toNat_wordA : (wordA op nnn).toNat = op.toNat * 4096 + nnn.toNat := by
  have := nnn.isLt
  rw [wordA, BitVec.toNat_append, ← Nat.shiftLeft_add_eq_or_of_lt this, Nat.shiftLeft_eq]

theorem toNat_wordXK : (wordXK op x kk).toNat = op.toNat * 4096 + x.toNat * 256 + kk.toNat := by
  have := kk.isLt
  have := x.isLt
  rw [wordXK, BitVec.toNat_append, BitVec.toNat_append, ← Nat.shiftLeft_add_eq_or_of_lt ‹_›,
    ← Nat.shiftLeft_add_eq_or_of_lt ‹_›, Nat.shiftLeft_eq, Nat.shiftLeft_eq]
  omega

theorem toNat_wordXYN :
    (wordXYN op x y n).toNat = op.toNat * 4096 + x.toNat * 256 + y.toNat * 16 + n.toNat := by
  have h1 := n.isLt
  have h2 := y.isLt
  have h3 := x.isLt
  rw [wordXYN, BitVec.toNat_append, BitVec.toNat_append, BitVec.toNat_append, ← Nat.shiftLeft_add_eq_or_of_lt h1,
    ← Nat.shiftLeft_add_eq_or_of_lt h2, ← Nat.shiftLeft_add_eq_or_of_lt h3, Nat.shiftLeft_eq, Nat.shiftLeft_eq,
    Nat.shiftLeft_eq]
  omega

/-- A decode error carries the word that does not decode. -/
theorem decode_error_eq {w : Word} {e : DecodeError} (h : decode w = .error e) : e = .unrecognizedSuffix w := by
  unfold decode at h
  split at h <;> (try unfold decodeGroup0 at h) <;> (try unfold decodeGroup8 at h) <;> (try unfold decodeGroupE at h) <;>
    (try unfold decodeGroupF at h) <;> (try split at h) <;> (try split at h) <;> cases h <;> rfl

end Sys2Proof
end

