-- ==== Sys2Proof/Laws/Memory.lean ====
section
/-! SUPPORT. The laws of memory: a read after a write, the canonical form kept, and what the checked accesses answer. -/

namespace Sys2Proof.Machine

theorem Memory.wfFrom_cons {lo a : Nat} {b : Byte} {m : List Host.Cell} :
    Memory.wfFrom lo ((a, b) :: m) = true ↔
      lo ≤ a ∧ a < Config.memSize ∧ b ≠ Memory.unlisted a ∧ Memory.wfFrom (a + 1) m = true := by
  simp [Memory.wfFrom, and_assoc]

theorem Memory.wfFrom_mono {lo lo' : Nat} {m : List Host.Cell} (h : lo' ≤ lo) (hm : Memory.wfFrom lo m = true) :
    Memory.wfFrom lo' m = true := by
  cases m with
  | nil => rfl
  | cons c m =>
    obtain ⟨h1, h2⟩ := Memory.wfFrom_cons.1 hm
    exact Memory.wfFrom_cons.2 ⟨h.trans h1, h2⟩

/-- Below the first listed address everything is unlisted. -/
theorem Memory.read_below {lo a : Nat} {m : List Host.Cell} (hm : Memory.wfFrom lo m = true) (h : a < lo) :
    Memory.read m a = Memory.unlisted a := by
  induction m generalizing lo with
  | nil => rfl
  | cons c m ih =>
    obtain ⟨a', b⟩ := c
    obtain ⟨h1, -, -, h4⟩ := Memory.wfFrom_cons.1 hm
    have hne : a ≠ a' := by omega
    simp only [Memory.read, hne, if_false]
    exact ih h4 (by omega)

theorem Memory.read_consCell {lo a : Nat} {b : Byte} {m : List Host.Cell} (hm : Memory.wfFrom lo m = true)
    (h : a < lo) (c : Nat) : Memory.read (Memory.consCell a b m) c = if c = a then b else Memory.read m c := by
  unfold Memory.consCell
  by_cases hb : b = Memory.unlisted a
  · by_cases hc : c = a
    · subst hc; simp [hb, Memory.read_below hm h]
    · simp [hb, hc]
  · simp [hb, Memory.read]

theorem Memory.wfFrom_consCell {lo a : Nat} {b : Byte} {m : List Host.Cell} (hm : Memory.wfFrom (a + 1) m = true)
    (hlo : lo ≤ a) (ha : a < Config.memSize) : Memory.wfFrom lo (Memory.consCell a b m) = true := by
  unfold Memory.consCell
  by_cases hb : b = Memory.unlisted a
  · simpa [hb] using Memory.wfFrom_mono (by omega) hm
  · simpa only [hb, if_false] using Memory.wfFrom_cons.2 ⟨hlo, ha, hb, hm⟩

theorem Memory.read_write_from {lo : Nat} {m : List Host.Cell} (hm : Memory.wfFrom lo m = true) (a : Nat) (b : Byte)
    (c : Nat) : Memory.read (Memory.write m a b) c = if c = a then b else Memory.read m c := by
  induction m generalizing lo with
  | nil => exact Memory.read_consCell (lo := a + 1) rfl (by omega) c
  | cons cell m ih =>
    obtain ⟨a', b'⟩ := cell
    obtain ⟨h1, h2, h3, h4⟩ := Memory.wfFrom_cons.1 hm
    rcases Nat.lt_trichotomy a a' with h | h | h
    · simpa only [Memory.write, h, if_true] using
        Memory.read_consCell (Memory.wfFrom_cons.2 ⟨le_refl a', h2, h3, h4⟩) h c
    · subst h
      simp only [Memory.write, lt_irrefl, if_false, if_true, Memory.read_consCell h4 (Nat.lt_succ_self a) c, Memory.read]
      split <;> simp_all
    · have h' : ¬ a < a' := by omega
      have hne : a ≠ a' := by omega
      simp only [Memory.write, h', hne, if_false, Memory.read, ih h4]
      by_cases hc : c = a'
      · have : c ≠ a := by omega
        simp [hc, Ne.symm hne]
      · simp [hc]

/-- A read after a write: the byte written there, every other byte as before. -/
theorem Memory.read_write {m : List Host.Cell} (hm : Memory.wf m = true) (a : Nat) (b : Byte) (c : Nat) :
    Memory.read (Memory.write m a b) c = if c = a then b else Memory.read m c :=
  Memory.read_write_from hm a b c

theorem Memory.wfFrom_write {lo : Nat} {m : List Host.Cell} (hm : Memory.wfFrom lo m = true) {a : Nat} (hlo : lo ≤ a)
    (ha : a < Config.memSize) (b : Byte) : Memory.wfFrom lo (Memory.write m a b) = true := by
  induction m generalizing lo with
  | nil => exact Memory.wfFrom_consCell rfl hlo ha
  | cons cell m ih =>
    obtain ⟨a', b'⟩ := cell
    obtain ⟨h1, h2, h3, h4⟩ := Memory.wfFrom_cons.1 hm
    rcases Nat.lt_trichotomy a a' with h | h | h
    · simpa only [Memory.write, h, if_true] using
        Memory.wfFrom_consCell (Memory.wfFrom_cons.2 ⟨h, h2, h3, h4⟩) hlo ha
    · subst h
      simpa only [Memory.write, lt_irrefl, if_false, if_true] using Memory.wfFrom_consCell h4 hlo ha
    · have h' : ¬ a < a' := by omega
      have hne : a ≠ a' := by omega
      simpa only [Memory.write, h', hne, if_false] using Memory.wfFrom_cons.2 ⟨h1, h2, h3, ih h4 h⟩

/-- A write inside memory keeps the canonical form. -/
theorem Memory.wf_write {m : List Host.Cell} (hm : Memory.wf m = true) {a : Nat} (ha : a < Config.memSize) (b : Byte) :
    Memory.wf (Memory.write m a b) = true :=
  Memory.wfFrom_write hm (Nat.zero_le a) ha b

/-- Writes inside memory keep the canonical form. -/
theorem Memory.wf_writeBytes {m : List Host.Cell} (hm : Memory.wf m = true) {a : Nat} {bs : List Byte}
    (h : a + bs.length ≤ Config.memSize) : Memory.wf (Memory.writeBytes m a bs) = true := by
  induction bs generalizing m a with
  | nil => exact hm
  | cons b bs ih =>
    simp only [List.length_cons] at h
    exact ih (Memory.wf_write hm (by omega) b) (by omega)

/-- Reads after writes inside memory: the byte written where there is one, every other byte as before. -/
theorem Memory.read_writeBytes {m : List Host.Cell} (hm : Memory.wf m = true) {a : Nat} {bs : List Byte}
    (h : a + bs.length ≤ Config.memSize) (c : Nat) :
    Memory.read (Memory.writeBytes m a bs) c =
      if a ≤ c then bs.getD (c - a) (Memory.read m c) else Memory.read m c := by
  induction bs generalizing m a with
  | nil => simp [Memory.writeBytes]
  | cons b bs ih =>
    simp only [List.length_cons] at h
    rw [Memory.writeBytes, ih (Memory.wf_write hm (by omega) b) (by omega), Memory.read_write hm]
    rcases Nat.lt_trichotomy c a with hc | hc | hc
    · rw [if_neg (by omega), if_neg (by omega), if_neg (by omega)]
    · subst hc; simp
    · rw [if_pos (by omega), if_neg (by omega), if_pos (by omega)]
      obtain ⟨k, rfl⟩ : ∃ k, c = a + 1 + k := ⟨c - (a + 1), by omega⟩
      have h1 : a + 1 + k - (a + 1) = k := by omega
      have h2 : a + 1 + k - a = k + 1 := by omega
      rw [h1, h2, List.getD_cons_succ]

/-- The image of a ROM that fits is canonical. -/
theorem Memory.wf_image {rom : List Byte} (h : rom.length ≤ maxRomLength) : Memory.wf (Memory.image rom) = true :=
  Memory.wf_writeBytes rfl (by simp only [maxRomLength, Config.memSize, Config.loadAddr] at *; omega)

/-- What `MemRead` answers. -/
theorem memRead?_eq_some {s : State} {a n : Nat} {bs : List Byte} :
    s.memRead? a n = some bs ↔ a + n ≤ Config.memSize ∧ bs = s.readBytes a n := by
  simp only [State.memRead?, inMemory, decide_eq_true_eq]
  split <;> simp_all [eq_comm]

theorem memRead?_eq_none {s : State} {a n : Nat} : s.memRead? a n = none ↔ Config.memSize < a + n := by
  simp only [State.memRead?, inMemory, decide_eq_true_eq]
  split <;> simp_all

/-- What the checked write answers. -/
theorem memWrite?_eq_some {s t : State} {a : Nat} {bs : List Byte} :
    s.memWrite? a bs = some t ↔
      a + bs.length ≤ Config.memSize ∧ t = { s with mem := Memory.writeBytes s.mem a bs } := by
  simp only [State.memWrite?, inMemory, decide_eq_true_eq]
  split <;> simp_all [eq_comm]

theorem memWrite?_eq_none {s : State} {a : Nat} {bs : List Byte} :
    s.memWrite? a bs = none ↔ Config.memSize < a + bs.length := by
  simp only [State.memWrite?, inMemory, decide_eq_true_eq]
  split <;> simp_all

@[simp] theorem length_readBytes (s : State) (a n : Nat) : (s.readBytes a n).length = n := by simp [State.readBytes]

theorem getElem_readBytes (s : State) (a n k : Nat) (h : k < (s.readBytes a n).length) :
    (s.readBytes a n)[k] = s.readByte (a + k) := by simp [State.readBytes]

end Sys2Proof.Machine
end

