-- ==== Sys2Proof/Laws/State.lean ====
section
/-! SUPPORT. One lemma per field and update, so that no proof unfolds a record update. -/

namespace Sys2Proof.Machine

variable (s : State)

/-! `setReg` -/

@[simp] theorem setReg_i (x : Nibble) (b : Byte) : (s.setReg x b).i = s.i := rfl
@[simp] theorem setReg_pc (x : Nibble) (b : Byte) : (s.setReg x b).pc = s.pc := rfl
@[simp] theorem setReg_stack (x : Nibble) (b : Byte) : (s.setReg x b).stack = s.stack := rfl
@[simp] theorem setReg_dt (x : Nibble) (b : Byte) : (s.setReg x b).dt = s.dt := rfl
@[simp] theorem setReg_mem (x : Nibble) (b : Byte) : (s.setReg x b).mem = s.mem := rfl
@[simp] theorem setReg_fb (x : Nibble) (b : Byte) : (s.setReg x b).fb = s.fb := rfl
@[simp] theorem setReg_key (x : Nibble) (b : Byte) : (s.setReg x b).key = s.key := rfl
@[simp] theorem setReg_paused (x : Nibble) (b : Byte) : (s.setReg x b).paused = s.paused := rfl
@[simp] theorem setReg_lastTick (x : Nibble) (b : Byte) : (s.setReg x b).lastTick = s.lastTick := rfl
@[simp] theorem setReg_boundary (x : Nibble) (b : Byte) : (s.setReg x b).boundary = s.boundary := rfl
@[simp] theorem setReg_rom (x : Nibble) (b : Byte) : (s.setReg x b).rom = s.rom := rfl
@[simp] theorem setReg_clock (x : Nibble) (b : Byte) : (s.setReg x b).clock = s.clock := rfl
@[simp] theorem setReg_clockReads (x : Nibble) (b : Byte) : (s.setReg x b).clockReads = s.clockReads := rfl
@[simp] theorem setReg_randDraws (x : Nibble) (b : Byte) : (s.setReg x b).randDraws = s.randDraws := rfl
@[simp] theorem setReg_result (x : Nibble) (b : Byte) : (s.setReg x b).result = s.result := rfl

/-! `setI` -/

@[simp] theorem setI_v (w : Word) : (s.setI w).v = s.v := rfl
@[simp] theorem setI_i (w : Word) : (s.setI w).i = w := rfl
@[simp] theorem setI_pc (w : Word) : (s.setI w).pc = s.pc := rfl
@[simp] theorem setI_stack (w : Word) : (s.setI w).stack = s.stack := rfl
@[simp] theorem setI_dt (w : Word) : (s.setI w).dt = s.dt := rfl
@[simp] theorem setI_mem (w : Word) : (s.setI w).mem = s.mem := rfl
@[simp] theorem setI_fb (w : Word) : (s.setI w).fb = s.fb := rfl
@[simp] theorem setI_key (w : Word) : (s.setI w).key = s.key := rfl
@[simp] theorem setI_paused (w : Word) : (s.setI w).paused = s.paused := rfl
@[simp] theorem setI_lastTick (w : Word) : (s.setI w).lastTick = s.lastTick := rfl
@[simp] theorem setI_boundary (w : Word) : (s.setI w).boundary = s.boundary := rfl
@[simp] theorem setI_rom (w : Word) : (s.setI w).rom = s.rom := rfl
@[simp] theorem setI_clock (w : Word) : (s.setI w).clock = s.clock := rfl
@[simp] theorem setI_clockReads (w : Word) : (s.setI w).clockReads = s.clockReads := rfl
@[simp] theorem setI_randDraws (w : Word) : (s.setI w).randDraws = s.randDraws := rfl
@[simp] theorem setI_result (w : Word) : (s.setI w).result = s.result := rfl

/-! `setDt` -/

@[simp] theorem setDt_v (b : Byte) : (s.setDt b).v = s.v := rfl
@[simp] theorem setDt_i (b : Byte) : (s.setDt b).i = s.i := rfl
@[simp] theorem setDt_pc (b : Byte) : (s.setDt b).pc = s.pc := rfl
@[simp] theorem setDt_stack (b : Byte) : (s.setDt b).stack = s.stack := rfl
@[simp] theorem setDt_dt (b : Byte) : (s.setDt b).dt = b := rfl
@[simp] theorem setDt_mem (b : Byte) : (s.setDt b).mem = s.mem := rfl
@[simp] theorem setDt_fb (b : Byte) : (s.setDt b).fb = s.fb := rfl
@[simp] theorem setDt_key (b : Byte) : (s.setDt b).key = s.key := rfl
@[simp] theorem setDt_paused (b : Byte) : (s.setDt b).paused = s.paused := rfl
@[simp] theorem setDt_lastTick (b : Byte) : (s.setDt b).lastTick = s.lastTick := rfl
@[simp] theorem setDt_boundary (b : Byte) : (s.setDt b).boundary = s.boundary := rfl
@[simp] theorem setDt_rom (b : Byte) : (s.setDt b).rom = s.rom := rfl
@[simp] theorem setDt_clock (b : Byte) : (s.setDt b).clock = s.clock := rfl
@[simp] theorem setDt_clockReads (b : Byte) : (s.setDt b).clockReads = s.clockReads := rfl
@[simp] theorem setDt_randDraws (b : Byte) : (s.setDt b).randDraws = s.randDraws := rfl
@[simp] theorem setDt_result (b : Byte) : (s.setDt b).result = s.result := rfl

/-! `push` -/

@[simp] theorem push_v (w : Word) : (s.push w).v = s.v := rfl
@[simp] theorem push_i (w : Word) : (s.push w).i = s.i := rfl
@[simp] theorem push_pc (w : Word) : (s.push w).pc = s.pc := rfl
@[simp] theorem push_stack (w : Word) : (s.push w).stack = w :: s.stack := rfl
@[simp] theorem push_dt (w : Word) : (s.push w).dt = s.dt := rfl
@[simp] theorem push_mem (w : Word) : (s.push w).mem = s.mem := rfl
@[simp] theorem push_fb (w : Word) : (s.push w).fb = s.fb := rfl
@[simp] theorem push_key (w : Word) : (s.push w).key = s.key := rfl
@[simp] theorem push_paused (w : Word) : (s.push w).paused = s.paused := rfl
@[simp] theorem push_lastTick (w : Word) : (s.push w).lastTick = s.lastTick := rfl
@[simp] theorem push_boundary (w : Word) : (s.push w).boundary = s.boundary := rfl
@[simp] theorem push_rom (w : Word) : (s.push w).rom = s.rom := rfl
@[simp] theorem push_clock (w : Word) : (s.push w).clock = s.clock := rfl
@[simp] theorem push_clockReads (w : Word) : (s.push w).clockReads = s.clockReads := rfl
@[simp] theorem push_randDraws (w : Word) : (s.push w).randDraws = s.randDraws := rfl
@[simp] theorem push_result (w : Word) : (s.push w).result = s.result := rfl

/-! `setFlag` -/

@[simp] theorem setFlag_i (f : Bool) : (s.setFlag f).i = s.i := rfl
@[simp] theorem setFlag_pc (f : Bool) : (s.setFlag f).pc = s.pc := rfl
@[simp] theorem setFlag_stack (f : Bool) : (s.setFlag f).stack = s.stack := rfl
@[simp] theorem setFlag_dt (f : Bool) : (s.setFlag f).dt = s.dt := rfl
@[simp] theorem setFlag_mem (f : Bool) : (s.setFlag f).mem = s.mem := rfl
@[simp] theorem setFlag_fb (f : Bool) : (s.setFlag f).fb = s.fb := rfl
@[simp] theorem setFlag_key (f : Bool) : (s.setFlag f).key = s.key := rfl
@[simp] theorem setFlag_paused (f : Bool) : (s.setFlag f).paused = s.paused := rfl
@[simp] theorem setFlag_lastTick (f : Bool) : (s.setFlag f).lastTick = s.lastTick := rfl
@[simp] theorem setFlag_boundary (f : Bool) : (s.setFlag f).boundary = s.boundary := rfl
@[simp] theorem setFlag_rom (f : Bool) : (s.setFlag f).rom = s.rom := rfl
@[simp] theorem setFlag_clock (f : Bool) : (s.setFlag f).clock = s.clock := rfl
@[simp] theorem setFlag_clockReads (f : Bool) : (s.setFlag f).clockReads = s.clockReads := rfl
@[simp] theorem setFlag_randDraws (f : Bool) : (s.setFlag f).randDraws = s.randDraws := rfl
@[simp] theorem setFlag_result (f : Bool) : (s.setFlag f).result = s.result := rfl

/-! `setResultAndFlag` -/

@[simp] theorem setResultAndFlag_i (o : FlagOrder) (d : Nibble) (r : Byte) (f : Bool) :
    (s.setResultAndFlag o d r f).i = s.i := rfl
@[simp] theorem setResultAndFlag_pc (o : FlagOrder) (d : Nibble) (r : Byte) (f : Bool) :
    (s.setResultAndFlag o d r f).pc = s.pc := rfl
@[simp] theorem setResultAndFlag_stack (o : FlagOrder) (d : Nibble) (r : Byte) (f : Bool) :
    (s.setResultAndFlag o d r f).stack = s.stack := rfl
@[simp] theorem setResultAndFlag_dt (o : FlagOrder) (d : Nibble) (r : Byte) (f : Bool) :
    (s.setResultAndFlag o d r f).dt = s.dt := rfl
@[simp] theorem setResultAndFlag_mem (o : FlagOrder) (d : Nibble) (r : Byte) (f : Bool) :
    (s.setResultAndFlag o d r f).mem = s.mem := rfl
@[simp] theorem setResultAndFlag_fb (o : FlagOrder) (d : Nibble) (r : Byte) (f : Bool) :
    (s.setResultAndFlag o d r f).fb = s.fb := rfl
@[simp] theorem setResultAndFlag_key (o : FlagOrder) (d : Nibble) (r : Byte) (f : Bool) :
    (s.setResultAndFlag o d r f).key = s.key := rfl
@[simp] theorem setResultAndFlag_paused (o : FlagOrder) (d : Nibble) (r : Byte) (f : Bool) :
    (s.setResultAndFlag o d r f).paused = s.paused := rfl
@[simp] theorem setResultAndFlag_lastTick (o : FlagOrder) (d : Nibble) (r : Byte) (f : Bool) :
    (s.setResultAndFlag o d r f).lastTick = s.lastTick := rfl
@[simp] theorem setResultAndFlag_boundary (o : FlagOrder) (d : Nibble) (r : Byte) (f : Bool) :
    (s.setResultAndFlag o d r f).boundary = s.boundary := rfl
@[simp] theorem setResultAndFlag_rom (o : FlagOrder) (d : Nibble) (r : Byte) (f : Bool) :
    (s.setResultAndFlag o d r f).rom = s.rom := rfl
@[simp] theorem setResultAndFlag_clock (o : FlagOrder) (d : Nibble) (r : Byte) (f : Bool) :
    (s.setResultAndFlag o d r f).clock = s.clock := rfl
@[simp] theorem setResultAndFlag_clockReads (o : FlagOrder) (d : Nibble) (r : Byte) (f : Bool) :
    (s.setResultAndFlag o d r f).clockReads = s.clockReads := rfl
@[simp] theorem setResultAndFlag_randDraws (o : FlagOrder) (d : Nibble) (r : Byte) (f : Bool) :
    (s.setResultAndFlag o d r f).randDraws = s.randDraws := rfl
@[simp] theorem setResultAndFlag_result (o : FlagOrder) (d : Nibble) (r : Byte) (f : Bool) :
    (s.setResultAndFlag o d r f).result = s.result := rfl

/-! `bumpI` -/

@[simp] theorem bumpI_v (c : Bool) (n : Nat) : (s.bumpI c n).v = s.v := rfl
@[simp] theorem bumpI_i (c : Bool) (n : Nat) :
    (s.bumpI c n).i = if c then s.i + BitVec.ofNat 16 n else s.i := rfl
@[simp] theorem bumpI_pc (c : Bool) (n : Nat) : (s.bumpI c n).pc = s.pc := rfl
@[simp] theorem bumpI_stack (c : Bool) (n : Nat) : (s.bumpI c n).stack = s.stack := rfl
@[simp] theorem bumpI_dt (c : Bool) (n : Nat) : (s.bumpI c n).dt = s.dt := rfl
@[simp] theorem bumpI_mem (c : Bool) (n : Nat) : (s.bumpI c n).mem = s.mem := rfl
@[simp] theorem bumpI_fb (c : Bool) (n : Nat) : (s.bumpI c n).fb = s.fb := rfl
@[simp] theorem bumpI_key (c : Bool) (n : Nat) : (s.bumpI c n).key = s.key := rfl
@[simp] theorem bumpI_paused (c : Bool) (n : Nat) : (s.bumpI c n).paused = s.paused := rfl
@[simp] theorem bumpI_lastTick (c : Bool) (n : Nat) : (s.bumpI c n).lastTick = s.lastTick := rfl
@[simp] theorem bumpI_boundary (c : Bool) (n : Nat) : (s.bumpI c n).boundary = s.boundary := rfl
@[simp] theorem bumpI_rom (c : Bool) (n : Nat) : (s.bumpI c n).rom = s.rom := rfl
@[simp] theorem bumpI_clock (c : Bool) (n : Nat) : (s.bumpI c n).clock = s.clock := rfl
@[simp] theorem bumpI_clockReads (c : Bool) (n : Nat) : (s.bumpI c n).clockReads = s.clockReads := rfl
@[simp] theorem bumpI_randDraws (c : Bool) (n : Nat) : (s.bumpI c n).randDraws = s.randDraws := rfl
@[simp] theorem bumpI_result (c : Bool) (n : Nat) : (s.bumpI c n).result = s.result := rfl

/-! `fillRegs` -/

@[simp] theorem fillRegs_i (k : Nat) (bs : List Byte) : (s.fillRegs k bs).i = s.i := by
  induction bs generalizing s k with
  | nil => rfl
  | cons b bs ih => simp [State.fillRegs, ih]
@[simp] theorem fillRegs_pc (k : Nat) (bs : List Byte) : (s.fillRegs k bs).pc = s.pc := by
  induction bs generalizing s k with
  | nil => rfl
  | cons b bs ih => simp [State.fillRegs, ih]
@[simp] theorem fillRegs_stack (k : Nat) (bs : List Byte) : (s.fillRegs k bs).stack = s.stack := by
  induction bs generalizing s k with
  | nil => rfl
  | cons b bs ih => simp [State.fillRegs, ih]
@[simp] theorem fillRegs_dt (k : Nat) (bs : List Byte) : (s.fillRegs k bs).dt = s.dt := by
  induction bs generalizing s k with
  | nil => rfl
  | cons b bs ih => simp [State.fillRegs, ih]
@[simp] theorem fillRegs_mem (k : Nat) (bs : List Byte) : (s.fillRegs k bs).mem = s.mem := by
  induction bs generalizing s k with
  | nil => rfl
  | cons b bs ih => simp [State.fillRegs, ih]
@[simp] theorem fillRegs_fb (k : Nat) (bs : List Byte) : (s.fillRegs k bs).fb = s.fb := by
  induction bs generalizing s k with
  | nil => rfl
  | cons b bs ih => simp [State.fillRegs, ih]
@[simp] theorem fillRegs_key (k : Nat) (bs : List Byte) : (s.fillRegs k bs).key = s.key := by
  induction bs generalizing s k with
  | nil => rfl
  | cons b bs ih => simp [State.fillRegs, ih]
@[simp] theorem fillRegs_paused (k : Nat) (bs : List Byte) : (s.fillRegs k bs).paused = s.paused := by
  induction bs generalizing s k with
  | nil => rfl
  | cons b bs ih => simp [State.fillRegs, ih]
@[simp] theorem fillRegs_lastTick (k : Nat) (bs : List Byte) : (s.fillRegs k bs).lastTick = s.lastTick := by
  induction bs generalizing s k with
  | nil => rfl
  | cons b bs ih => simp [State.fillRegs, ih]
@[simp] theorem fillRegs_boundary (k : Nat) (bs : List Byte) : (s.fillRegs k bs).boundary = s.boundary := by
  induction bs generalizing s k with
  | nil => rfl
  | cons b bs ih => simp [State.fillRegs, ih]
@[simp] theorem fillRegs_rom (k : Nat) (bs : List Byte) : (s.fillRegs k bs).rom = s.rom := by
  induction bs generalizing s k with
  | nil => rfl
  | cons b bs ih => simp [State.fillRegs, ih]
@[simp] theorem fillRegs_clock (k : Nat) (bs : List Byte) : (s.fillRegs k bs).clock = s.clock := by
  induction bs generalizing s k with
  | nil => rfl
  | cons b bs ih => simp [State.fillRegs, ih]
@[simp] theorem fillRegs_clockReads (k : Nat) (bs : List Byte) : (s.fillRegs k bs).clockReads = s.clockReads := by
  induction bs generalizing s k with
  | nil => rfl
  | cons b bs ih => simp [State.fillRegs, ih]
@[simp] theorem fillRegs_randDraws (k : Nat) (bs : List Byte) : (s.fillRegs k bs).randDraws = s.randDraws := by
  induction bs generalizing s k with
  | nil => rfl
  | cons b bs ih => simp [State.fillRegs, ih]
@[simp] theorem fillRegs_result (k : Nat) (bs : List Byte) : (s.fillRegs k bs).result = s.result := by
  induction bs generalizing s k with
  | nil => rfl
  | cons b bs ih => simp [State.fillRegs, ih]

/-! `tick` -/

@[simp] theorem tick_v (now : Nat) : (s.tick now).v = s.v := rfl
@[simp] theorem tick_i (now : Nat) : (s.tick now).i = s.i := rfl
@[simp] theorem tick_pc (now : Nat) : (s.tick now).pc = s.pc := rfl
@[simp] theorem tick_stack (now : Nat) : (s.tick now).stack = s.stack := rfl
@[simp] theorem tick_dt (now : Nat) : (s.tick now).dt = if s.tickDue now then decrementFloor s.dt else s.dt := rfl
@[simp] theorem tick_mem (now : Nat) : (s.tick now).mem = s.mem := rfl
@[simp] theorem tick_fb (now : Nat) : (s.tick now).fb = s.fb := rfl
@[simp] theorem tick_key (now : Nat) : (s.tick now).key = s.key := rfl
@[simp] theorem tick_paused (now : Nat) : (s.tick now).paused = s.paused := rfl
@[simp] theorem tick_lastTick (now : Nat) : (s.tick now).lastTick = if s.tickDue now then now else s.lastTick := rfl
@[simp] theorem tick_boundary (now : Nat) : (s.tick now).boundary = s.boundary := rfl
@[simp] theorem tick_rom (now : Nat) : (s.tick now).rom = s.rom := rfl
@[simp] theorem tick_clock (now : Nat) : (s.tick now).clock = now := rfl
@[simp] theorem tick_clockReads (now : Nat) : (s.tick now).clockReads = s.clockReads + 1 := rfl
@[simp] theorem tick_randDraws (now : Nat) : (s.tick now).randDraws = s.randDraws := rfl
@[simp] theorem tick_result (now : Nat) : (s.tick now).result = s.result := rfl

end Sys2Proof.Machine
end

