-- ==== Sys2Proof/Laws/Registers.lean ====
section
/-! SUPPORT. The laws of the data registers, the flag register, the call stack and the keys. -/

namespace Sys2Proof.Machine

variable (s : State)

/-- A register read depends on the register file alone. -/
theorem reg_congr {s t : State} (h : t.v = s.v) (x : Nibble) : t.reg x = s.reg x := by simp [State.reg, h]

@[simp] theorem reg_setReg_same (x : Nibble) (b : Byte) : (s.setReg x b).reg x = b := by
  simp [State.reg, State.setReg]

theorem reg_setReg_ne {x y : Nibble} (h : y ≠ x) (b : Byte) : (s.setReg x b).reg y = s.reg y := by
  have : x.toNat ≠ y.toNat := fun e => h (BitVec.eq_of_toNat_eq e.symm)
  simp [State.reg, State.setReg, this]

/-- A register read after a register write. -/
theorem reg_setReg (x y : Nibble) (b : Byte) : (s.setReg x b).reg y = if y = x then b else s.reg y := by
  by_cases h : y = x
  · subst h; simp
  · simp [h, reg_setReg_ne s h]

@[simp] theorem reg_setFlag (y : Nibble) (f : Bool) :
    (s.setFlag f).reg y = if y = flagReg then flagByte f else s.reg y := reg_setReg s flagReg y _

theorem setResultAndFlag_flagLast (d : Nibble) (r : Byte) (f : Bool) :
    s.setResultAndFlag .flagLast d r f = (s.setReg d r).setFlag f := rfl

theorem setResultAndFlag_flagFirst (d : Nibble) (r : Byte) (f : Bool) :
    s.setResultAndFlag .flagFirst d r f = (s.setFlag f).setReg d r := rfl

/-- A register read after a result and a flag were written: the order matters for register 15 as destination only. -/
theorem reg_setResultAndFlag (o : FlagOrder) (d y : Nibble) (r : Byte) (f : Bool) :
    (s.setResultAndFlag o d r f).reg y =
      if y = d ∧ (d ≠ flagReg ∨ o = .flagFirst) then r
      else if y = flagReg then flagByte f else s.reg y := by
  by_cases h1 : y = d <;> by_cases h2 : d = flagReg <;> cases o <;>
    simp_all [setResultAndFlag_flagLast, setResultAndFlag_flagFirst, reg_setReg]

@[simp] theorem reg_setI (w : Word) (x : Nibble) : (s.setI w).reg x = s.reg x := rfl
@[simp] theorem reg_setDt (b : Byte) (x : Nibble) : (s.setDt b).reg x = s.reg x := rfl
@[simp] theorem reg_push (w : Word) (x : Nibble) : (s.push w).reg x = s.reg x := rfl
@[simp] theorem reg_tick (now : Nat) (x : Nibble) : (s.tick now).reg x = s.reg x := rfl
@[simp] theorem reg_bumpI (c : Bool) (n : Nat) (x : Nibble) : (s.bumpI c n).reg x = s.reg x :=
  reg_congr (bumpI_v s c n) x

/-- A register read after `V[k], V[k+1], ...` were filled. -/
theorem reg_fillRegs (k : Nat) (bs : List Byte) (h : k + bs.length ≤ 16) (y : Nibble) :
    (s.fillRegs k bs).reg y = if k ≤ y.toNat then bs.getD (y.toNat - k) (s.reg y) else s.reg y := by
  induction bs generalizing s k with
  | nil => simp [State.fillRegs]
  | cons b bs ih =>
    simp only [List.length_cons] at h
    rw [State.fillRegs, ih _ _ (by omega), reg_setReg]
    have hk : (BitVec.ofNat 4 k).toNat = k := by simp; omega
    have hy : y = BitVec.ofNat 4 k ↔ y.toNat = k := by rw [← BitVec.toNat_inj, hk]
    rcases Nat.lt_trichotomy y.toNat k with hc | hc | hc
    · rw [if_neg (by omega), if_neg (fun e => by have := hy.1 e; omega), if_neg (by omega)]
    · rw [if_neg (by omega), if_pos (hy.2 hc), if_pos (by omega)]
      simp [hc]
    · rw [if_pos (by omega), if_neg (fun e => by have := hy.1 e; omega), if_pos (by omega)]
      have : y.toNat - k = (y.toNat - (k + 1)) + 1 := by omega
      rw [this, List.getD_cons_succ]

@[simp] theorem length_regList (n : Nat) : (s.regList n).length = n := by simp [State.regList]

theorem getElem_regList (n k : Nat) (h : k < (s.regList n).length) :
    (s.regList n)[k] = s.reg (BitVec.ofNat 4 k) := by simp [State.regList]

/-- `pop()` answers exactly on a stack that is not empty. -/
theorem pop?_eq_some {s t : State} {w : Word} :
    s.pop? = some (w, t) ↔ ∃ rest, s.stack = w :: rest ∧ t = { s with stack := rest } := by
  unfold State.pop?
  split <;> simp_all [eq_comm]

theorem pop?_eq_none {s : State} : s.pop? = none ↔ s.stack = [] := by
  unfold State.pop?
  split <;> simp_all

theorem keyAt?_eq_some {s : State} {k : Nat} {b : Bool} :
    s.keyAt? k = some b ↔ ∃ h : k < Config.nKeys, s.key[k] = b := by
  simp [State.keyAt?, Vector.getElem?_eq_some_iff]

theorem keyAt?_eq_none {s : State} {k : Nat} : s.keyAt? k = none ↔ Config.nKeys ≤ k := by
  simp [State.keyAt?]

/-- The least pressed key is pressed, and no lesser key is. -/
theorem leastKey?_eq_some {s : State} {k : Nat} :
    s.leastKey? = some k ↔
      k < Config.nKeys ∧ s.keyAt? k = some true ∧ ∀ j < k, s.keyAt? j ≠ some true := by
  simp only [State.leastKey?, List.find?_range_eq_some, beq_iff_eq, List.mem_range]
  constructor
  · rintro ⟨h1, h2, h3⟩; exact ⟨h2, h1, fun j hj => by simpa using h3 j hj⟩
  · rintro ⟨h2, h1, h3⟩; exact ⟨h1, h2, fun j hj => by simpa using h3 j hj⟩

theorem leastKey?_eq_none {s : State} : s.leastKey? = none ↔ ∀ k < Config.nKeys, s.keyAt? k ≠ some true := by
  simp [State.leastKey?]

end Sys2Proof.Machine
end

