-- ==== Sys2Proof/Laws/Screen.lean ====
section
/-! SUPPORT. The laws of the framebuffer: one pixel inverted, and what the sprite loop of `Draw` does to each pixel. -/

namespace Sys2Proof.Machine

@[simp] theorem pixel_blankScreen (r : Fin Config.fbH) (c : Fin Config.fbW) : pixel blankScreen r c = false := by
  simp [pixel, blankScreen]

/-- One pixel inverted, every other pixel as before. -/
theorem pixel_togglePixel (fb : Framebuffer) (r r' : Fin Config.fbH) (c c' : Fin Config.fbW) :
    pixel (togglePixel fb r c) r' c' = if r' = r ∧ c' = c then !pixel fb r c else pixel fb r' c' := by
  by_cases hr : r' = r
  · subst hr
    by_cases hc : c' = c
    · subst hc; simp [pixel, togglePixel]
    · have : c.val ≠ c'.val := fun e => hc (Fin.ext e.symm)
      simp [pixel, togglePixel, hc, this]
  · have : r.val ≠ r'.val := fun e => hr (Fin.ext e.symm)
    simp [pixel, togglePixel, hr, this]

/-- Two framebuffers with the same pixels are equal. -/
theorem framebuffer_ext {fb fb' : Framebuffer} (h : ∀ r c, pixel fb r c = pixel fb' r c) : fb = fb' := by
  apply Vector.ext
  intro r hr
  apply Vector.ext
  intro c hc
  exact h ⟨r, hr⟩ ⟨c, hc⟩

/-- What plotting a list of distinct pixels does: each is inverted once, and a collision is one that was set. -/
theorem foldl_plot {α : Type} (on : α → Bool) (row : α → Fin Config.fbH) (col : α → Fin Config.fbW) (l : List α)
    (hl : l.Pairwise fun a b => ¬ (row a = row b ∧ col a = col b)) (acc : Framebuffer × Bool) :
    let out := l.foldl (fun acc a => if on a then plot acc (row a) (col a) else acc) acc
    (∀ r c, pixel out.1 r c = (pixel acc.1 r c ^^ decide (∃ a ∈ l, on a = true ∧ row a = r ∧ col a = c))) ∧
    (out.2 = true ↔ acc.2 = true ∨ ∃ a ∈ l, on a = true ∧ pixel acc.1 (row a) (col a) = true) := by
  induction l generalizing acc with
  | nil => simp
  | cons a l ih =>
    obtain ⟨ha, hl⟩ := List.pairwise_cons.1 hl
    obtain ⟨h1, h2⟩ := ih hl (if on a then plot acc (row a) (col a) else acc)
    by_cases hon : on a = true
    · have hnot : ¬ ∃ b ∈ l, on b = true ∧ row b = row a ∧ col b = col a := by
        rintro ⟨b, hb, -, e1, e2⟩; exact ha b hb ⟨e1.symm, e2.symm⟩
      simp only [hon, if_true] at h1 h2
      refine ⟨fun r c => ?_, ?_⟩
      · simp only [List.foldl_cons, hon, if_true]
        rw [h1 r c]
        simp only [plot, pixel_togglePixel]
        by_cases hrc : r = row a ∧ c = col a
        · obtain ⟨rfl, rfl⟩ := hrc
          simp [hon, hnot]
        · have : ¬ (row a = r ∧ col a = c) := fun e => hrc ⟨e.1.symm, e.2.symm⟩
          simp [hrc, this]
      · simp only [List.foldl_cons, hon, if_true]
        rw [h2]
        simp only [plot, Bool.or_eq_true, List.mem_cons, exists_eq_or_imp, hon, true_and, or_assoc]
        apply or_congr_right; apply or_congr_right
        apply exists_congr; intro b
        apply and_congr_right; intro hb
        apply and_congr_right; intro _
        rw [pixel_togglePixel, if_neg (fun e => ha b hb ⟨e.1.symm, e.2.symm⟩)]
    · have hoff : on a = false := by simpa using hon
      simp only [hoff, Bool.false_eq_true, if_false] at h1 h2
      simp only [List.foldl_cons, hoff, Bool.false_eq_true, if_false, List.mem_cons, exists_eq_or_imp, false_and,
        false_or]
      exact ⟨h1, h2⟩

theorem screenRow_inj {y0 : Byte} {a b : Nat} (h : screenRow y0 a = screenRow y0 b) (ha : a < b + 32) (hb : b < a + 32) :
    a = b := by
  have := Fin.val_eq_of_eq h
  simp only [screenRow, Config.fbH] at this
  omega

theorem screenCol_inj {x0 : Byte} {a b : Nat} (h : screenCol x0 a = screenCol x0 b) (ha : a < 8) (hb : b < 8) :
    a = b := by
  have := Fin.val_eq_of_eq h
  simp only [screenCol, Config.fbW] at this
  omega

/-- Exactly the bits of the sprite rows `bs`, from row number `row` on, that fall on a pixel. -/
abbrev RowsCover (x0 y0 : Byte) (row : Nat) (bs : List Byte) (r : Fin Config.fbH) (c : Fin Config.fbW) : Prop :=
  ∃ k < bs.length, ∃ col < 8, spriteBit (bs.getD k 0) col = true ∧ screenRow y0 (row + k) = r ∧ screenCol x0 col = c

theorem rowsCover_cons {x0 y0 b : Byte} {row : Nat} {bs : List Byte} {r : Fin Config.fbH} {c : Fin Config.fbW} :
    RowsCover x0 y0 row (b :: bs) r c ↔
      (∃ col < 8, spriteBit b col = true ∧ screenRow y0 row = r ∧ screenCol x0 col = c) ∨
        RowsCover x0 y0 (row + 1) bs r c := by
  have shift : ∀ k, row + 1 + k = row + (k + 1) := fun k => by omega
  constructor
  · rintro ⟨_ | k, hk, h⟩
    · exact .inl (by simpa using h)
    · exact .inr ⟨k, by simpa using hk, by simpa [shift] using h⟩
  · rintro (h | ⟨k, hk, h⟩)
    · exact ⟨0, by simp, by simpa using h⟩
    · exact ⟨k + 1, by simpa using hk, by simpa [shift] using h⟩

/-- What the columns of one sprite row do. -/
theorem plotRow_spec (x0 y0 : Byte) (row : Nat) (b : Byte) (acc : Framebuffer × Bool) :
    (∀ r c, (pixel (plotRow x0 y0 row b acc).1 r c ≠ pixel acc.1 r c ↔
      ∃ col < 8, spriteBit b col = true ∧ screenRow y0 row = r ∧ screenCol x0 col = c)) ∧
    ((plotRow x0 y0 row b acc).2 = true ↔
      acc.2 = true ∨ ∃ col < 8, spriteBit b col = true ∧ pixel acc.1 (screenRow y0 row) (screenCol x0 col) = true) := by
  obtain ⟨h1, h2⟩ :=
    foldl_plot (spriteBit b) (fun _ => screenRow y0 row) (screenCol x0) (List.range 8)
      ((List.pairwise_lt_range (n := 8)).imp_of_mem fun hi hj hij he => by
        have := screenCol_inj he.2 (List.mem_range.1 hi) (List.mem_range.1 hj)
        omega) acc
  refine ⟨fun r c => ?_, by simpa only [List.mem_range, plotRow] using h2⟩
  have h := h1 r c
  simp only [List.mem_range] at h
  rw [plotRow, h]
  cases pixel acc.1 r c <;> simp

/-- What the rows `row, row+1, ...` of a sprite do: exactly the covered pixels change, and a collision is a covered pixel
that was set. -/
theorem plotRows_spec (x0 y0 : Byte) (row : Nat) (bs : List Byte) (acc : Framebuffer × Bool) (h : bs.length ≤ 32) :
    (∀ r c, pixel (plotRows x0 y0 row bs acc).1 r c ≠ pixel acc.1 r c ↔ RowsCover x0 y0 row bs r c) ∧
    ((plotRows x0 y0 row bs acc).2 = true ↔
      acc.2 = true ∨ ∃ r c, RowsCover x0 y0 row bs r c ∧ pixel acc.1 r c = true) := by
  induction bs generalizing row acc with
  | nil => simp [plotRows, RowsCover]
  | cons b bs ih =>
    simp only [List.length_cons] at h
    obtain ⟨p1, p2⟩ := plotRow_spec x0 y0 row b acc
    obtain ⟨q1, q2⟩ := ih (row + 1) (plotRow x0 y0 row b acc) (by omega)
    have apart : ∀ r c, RowsCover x0 y0 (row + 1) bs r c →
        pixel (plotRow x0 y0 row b acc).1 r c = pixel acc.1 r c := by
      rintro r c ⟨k, hk, _, _, _, rfl, _⟩
      refine not_not.1 fun hn => ?_
      obtain ⟨_, _, _, e, _⟩ := (p1 _ _).1 hn
      have := screenRow_inj e (by omega) (by omega)
      omega
    constructor
    · intro r c
      rw [rowsCover_cons, ← p1, plotRows]
      have a := apart r c
      rw [← q1] at a ⊢
      revert a
      cases pixel (plotRows x0 y0 (row + 1) bs (plotRow x0 y0 row b acc)).1 r c <;>
        cases pixel (plotRow x0 y0 row b acc).1 r c <;> cases pixel acc.1 r c <;> simp
    · rw [plotRows, q2, p2, or_assoc]
      apply or_congr_right
      simp only [rowsCover_cons, or_and_right, exists_or]
      apply or_congr
      · constructor
        · rintro ⟨col, hc, hb, hp⟩; exact ⟨_, _, ⟨col, hc, hb, rfl, rfl⟩, hp⟩
        · rintro ⟨_, _, ⟨col, hc, hb, rfl, rfl⟩, hp⟩; exact ⟨col, hc, hb, hp⟩
      · refine exists_congr fun r => exists_congr fun c => and_congr_right fun hcov => ?_
        rw [apart r c hcov]

end Sys2Proof.Machine
end

