-- ==== Sys2Proof/Laws/Endings.lean ====
section
/-! SUPPORT. Each way an instruction ends and each part of the step cycle, said once: what a next state, a fault or a
refusal of it can be. -/

namespace Sys2Proof.Machine

variable {s t taken : State} {target : Word} {r : StepResult} {c : Bool} {f : Fault}

theorem advanceWith_next : advanceWith r s = .next t ↔ t = { s with pc := s.pc + 2#16, result := r } := by
  simp [advanceWith, eq_comm]

theorem advance_next : advance s = .next t ↔ t = { s with pc := s.pc + 2#16, result := .cont } := advanceWith_next

theorem advanceRedraw_next :
    advanceRedraw s = .next t ↔ t = { s with pc := s.pc + 2#16, result := .continueRedraw } := advanceWith_next

theorem skipIf_next :
    skipIf c s = .next t ↔ t = { s with pc := if c then s.pc + 4#16 else s.pc + 2#16, result := .cont } := by
  simp [skipIf, eq_comm]

theorem transfer_next : transfer target s = .next t ↔ t = { s with pc := target, result := .cont } := by
  simp [transfer, eq_comm]

theorem stay_next : stay r s = .next t ↔ t = { s with result := r } := by simp [stay, eq_comm]

theorem takeError_next {e : EngineError} : takeError e s = .next t ↔ t = { s with result := .error e } := stay_next

/-- A self-loop changes no state; every other target is taken. -/
theorem jumpOrLoop_next :
    jumpOrLoop target taken s = .next t ↔
      (target = s.pc ∧ t = { s with result := .selfLoop }) ∨
      (target ≠ s.pc ∧ t = { taken with pc := target, result := .cont }) := by
  unfold jumpOrLoop
  split <;> simp_all [stay_next, transfer_next]

/-- What the fetch answers (40_step_cycle.md R103). -/
theorem fetch?_eq_some {w : Word} :
    s.fetch? = some w ↔
      s.pc.toNat + 2 ≤ Config.memSize ∧ w = wordOfBytes (s.readByte s.pc.toNat) (s.readByte (s.pc.toNat + 1)) := by
  simp only [State.fetch?, State.memRead?, inMemory, decide_eq_true_eq]
  by_cases h : s.pc.toNat + 2 ≤ Config.memSize
  · simp [h, State.readBytes, List.range_succ, eq_comm]
  · simp [h]

theorem fetch?_eq_none : s.fetch? = none ↔ Config.memSize < s.pc.toNat + 2 := by
  simp only [State.fetch?, State.memRead?, inMemory, decide_eq_true_eq]
  by_cases h : s.pc.toNat + 2 ≤ Config.memSize
  · simp [h, State.readBytes, List.range_succ]
  · simp [h]; omega

end Sys2Proof.Machine
end

