-- ==== Sys2Proof/Laws/PerInstr.lean ====
section
/-! SUPPORT. Statements about every instruction as syntax, one lemma per constructor: the group nibble of its word. -/

namespace Sys2Proof

/-- The group of an instruction in the opcode map (30_encoding.md R76). -/
def opcodeGroup : Instr → Nibble
  | .sys _ => 0x0
  | .clr => 0x0
  | .rts => 0x0
  | .jump _ => 0x1
  | .call _ => 0x2
  | .ske _ _ => 0x3
  | .skne _ _ => 0x4
  | .skre _ _ => 0x5
  | .load _ _ => 0x6
  | .add _ _ => 0x7
  | .move _ _ => 0x8
  | .or _ _ => 0x8
  | .and _ _ => 0x8
  | .xor _ _ => 0x8
  | .addr _ _ => 0x8
  | .sub _ _ => 0x8
  | .shr _ _ => 0x8
  | .shl _ _ => 0x8
  | .skrne _ _ => 0x9
  | .loadI _ => 0xA
  | .jumpI _ => 0xB
  | .rand _ _ => 0xC
  | .draw _ _ _ => 0xD
  | .skpr _ => 0xE
  | .skup _ => 0xE
  | .moved _ => 0xF
  | .keyd _ => 0xF
  | .loadd _ => 0xF
  | .loads _ => 0xF
  | .addi _ => 0xF
  | .ldspr _ => 0xF
  | .bcd _ => 0xF
  | .stor _ => 0xF
  | .read _ => 0xF

namespace Laws.WordGroup

/-- `w[15:12]` of the encoded instruction is the instruction's group. -/
def Statement (i : Instr) : Prop := fieldOp (encode i) = opcodeGroup i

theorem sys (nnn : Addr12) : Statement (.sys nnn) := fieldOp_wordA _ nnn
theorem clr : Statement .clr := rfl
theorem rts : Statement .rts := rfl
theorem jump (nnn : Addr12) : Statement (.jump nnn) := fieldOp_wordA _ nnn
theorem call (nnn : Addr12) : Statement (.call nnn) := fieldOp_wordA _ nnn
theorem ske (x : Nibble) (kk : Byte) : Statement (.ske x kk) := fieldOp_wordXK _ x kk
theorem skne (x : Nibble) (kk : Byte) : Statement (.skne x kk) := fieldOp_wordXK _ x kk
theorem skre (x y : Nibble) : Statement (.skre x y) := fieldOp_wordXYN _ x y _
theorem load (x : Nibble) (kk : Byte) : Statement (.load x kk) := fieldOp_wordXK _ x kk
theorem add (x : Nibble) (kk : Byte) : Statement (.add x kk) := fieldOp_wordXK _ x kk
theorem move (x y : Nibble) : Statement (.move x y) := fieldOp_wordXYN _ x y _
theorem or (x y : Nibble) : Statement (.or x y) := fieldOp_wordXYN _ x y _
theorem and (x y : Nibble) : Statement (.and x y) := fieldOp_wordXYN _ x y _
theorem xor (x y : Nibble) : Statement (.xor x y) := fieldOp_wordXYN _ x y _
theorem addr (x y : Nibble) : Statement (.addr x y) := fieldOp_wordXYN _ x y _
theorem sub (x y : Nibble) : Statement (.sub x y) := fieldOp_wordXYN _ x y _
theorem shr (x y : Nibble) : Statement (.shr x y) := fieldOp_wordXYN _ x y _
theorem shl (x y : Nibble) : Statement (.shl x y) := fieldOp_wordXYN _ x y _
theorem skrne (x y : Nibble) : Statement (.skrne x y) := fieldOp_wordXYN _ x y _
theorem loadI (nnn : Addr12) : Statement (.loadI nnn) := fieldOp_wordA _ nnn
theorem jumpI (nnn : Addr12) : Statement (.jumpI nnn) := fieldOp_wordA _ nnn
theorem rand (x : Nibble) (kk : Byte) : Statement (.rand x kk) := fieldOp_wordXK _ x kk
theorem draw (x y n : Nibble) : Statement (.draw x y n) := fieldOp_wordXYN _ x y n
theorem skpr (x : Nibble) : Statement (.skpr x) := fieldOp_wordXK _ x _
theorem skup (x : Nibble) : Statement (.skup x) := fieldOp_wordXK _ x _
theorem moved (x : Nibble) : Statement (.moved x) := fieldOp_wordXK _ x _
theorem keyd (x : Nibble) : Statement (.keyd x) := fieldOp_wordXK _ x _
theorem loadd (x : Nibble) : Statement (.loadd x) := fieldOp_wordXK _ x _
theorem loads (x : Nibble) : Statement (.loads x) := fieldOp_wordXK _ x _
theorem addi (x : Nibble) : Statement (.addi x) := fieldOp_wordXK _ x _
theorem ldspr (x : Nibble) : Statement (.ldspr x) := fieldOp_wordXK _ x _
theorem bcd (x : Nibble) : Statement (.bcd x) := fieldOp_wordXK _ x _
theorem stor (x : Nibble) : Statement (.stor x) := fieldOp_wordXK _ x _
theorem read (x : Nibble) : Statement (.read x) := fieldOp_wordXK _ x _

end Laws.WordGroup

end Sys2Proof
end

