-- ==== Sys2Proof/Laws/Step.lean ====
section
/-! SUPPORT. The delay tick and one step, said once: everything a step can be. -/

namespace Sys2Proof.Machine

variable {s : State}

theorem toNat_decrementFloor (b : Byte) : (decrementFloor b).toNat = b.toNat - 1 := by
  unfold decrementFloor
  split
  · rename_i h; simp [h]
  · rename_i h
    have : b.toNat ≠ 0 := fun e => h (BitVec.eq_of_toNat_eq e)
    have := b.isLt
    rw [BitVec.toNat_sub]; simp; omega

theorem tickDue_iff (s : State) (now : Nat) : s.tickDue now = true ↔ 16000000 ≤ now - s.lastTick := decide_eq_true_iff

theorem clock_le_nextNow (s : State) : s.clock ≤ s.nextNow := Nat.le_add_right _ _

/-- The word a fetch inside memory answers. -/
theorem fetch?_of_le (h : s.pc.toNat + 2 ≤ Config.memSize) : s.fetch? = some s.wordAtPc := fetch?_eq_some.2 ⟨h, rfl⟩

theorem step_of_paused (h : s.paused = true) : step s = .next { s with result := .cont } := by
  simp [step, stepAt, h, stay]

theorem step_of_not_paused (h : s.paused = false) : step s = runFetched (s.tick s.nextNow) := by
  simp [step, stepAt, h]

theorem step_of_fetch_outside (h : s.paused = false) (hpc : Config.memSize < s.pc.toNat + 2) :
    step s = .fault (.memoryOutOfRange s.pc (s.tick s.nextNow)) := by
  rw [step_of_not_paused h, runFetched,
    fetch?_eq_none.2 (show Config.memSize < (s.tick s.nextNow).pc.toNat + 2 from hpc)]
  rfl

theorem step_of_decode_ok (h : s.CanFetch) {i : Instr} (hd : decode s.wordAtPc = .ok i) :
    step s = exec i (s.tick s.nextNow) := by
  rw [step_of_not_paused h.1, runFetched, fetch?_of_le (s := s.tick s.nextNow) h.2]
  simp only [show (s.tick s.nextNow).wordAtPc = s.wordAtPc from rfl, hd]

theorem step_of_decode_error (h : s.CanFetch) {e : DecodeError} (hd : decode s.wordAtPc = .error e) :
    step s = .next { s.tick s.nextNow with result := .error (.decodeError s.wordAtPc) } := by
  obtain rfl := decode_error_eq hd
  rw [step_of_not_paused h.1, runFetched, fetch?_of_le (s := s.tick s.nextNow) h.2]
  simp only [show (s.tick s.nextNow).wordAtPc = s.wordAtPc from rfl, hd]
  rfl

/-- Everything a step can be: paused, fetch outside memory, an instruction, a word that does not decode. -/
theorem step_cases (s : State) :
    (s.paused = true ∧ step s = .next { s with result := .cont }) ∨
    (s.paused = false ∧ Config.memSize < s.pc.toNat + 2 ∧
      step s = .fault (.memoryOutOfRange s.pc (s.tick s.nextNow))) ∨
    (s.CanFetch ∧ ∃ i, decode s.wordAtPc = .ok i ∧ step s = exec i (s.tick s.nextNow)) ∨
    (s.CanFetch ∧ decode s.wordAtPc = .error (.unrecognizedSuffix s.wordAtPc) ∧
      step s = .next { s.tick s.nextNow with result := .error (.decodeError s.wordAtPc) }) := by
  by_cases hp : s.paused = true
  · exact .inl ⟨hp, step_of_paused hp⟩
  · replace hp : s.paused = false := by simpa using hp
    refine .inr ?_
    by_cases h : Config.memSize < s.pc.toNat + 2
    · exact .inl ⟨hp, h, step_of_fetch_outside hp h⟩
    · have hc : s.CanFetch := ⟨hp, Nat.not_lt.1 h⟩
      cases hd : decode s.wordAtPc with
      | ok i => exact .inr (.inl ⟨hc, i, rfl, step_of_decode_ok hc hd⟩)
      | error e => exact .inr (.inr ⟨hc, by rw [decode_error_eq hd], step_of_decode_error hc hd⟩)

/-- One more step of a run, for any machine: the run goes on from the state the step answers. -/
theorem run_of_next (M : Host.Core) (k : Nat) (s t : M.State) (h : M.step s = .next t) :
    Host.Core.run M (k + 1) s = Host.Core.run M k t := by
  simp only [Host.Core.run, h]

end Sys2Proof.Machine
end

