-- ==== Sys2Proof/Laws/Session.lean ====
section
/-! SUPPORT. Laws of runs: what one event of a run can do, runs one after the other, and launch premises that hold or
have an effect. -/

namespace Sys2Proof.Machine

variable {stops : List EndCondition}

@[simp] theorem runEvent_step (s : State) : runEvent .step s = step s := rfl

@[simp] theorem runEvent_host (a : HostAction) (s : State) : runEvent (.host a) s = .next (hostAct a s) := rfl

@[simp] theorem runUntil_nil (s : State) : runUntil stops [] s = .ongoing s := rfl

/-- The state an event leaves for the rest of a run: a next state, or the one a fault carries. -/
def Leaves (e : Event) (s t : State) : Prop := runEvent e s = .next t ∨ ∃ f : Fault, runEvent e s = .fault f ∧ f.after = t

/-- Everything the first event of a run can do: end it, leave a state for the rest, or be refused. -/
theorem runUntil_cons_cases (e : Event) (s : State) :
    (∃ c ∈ stops, e = .step ∧ c.metBy (step s) = true ∧ ∀ fs, runUntil stops (e :: fs) s = .ended c (step s) fs) ∨
    ((e = .step → ∀ c ∈ stops, c.metBy (step s) = false) ∧
      ((∃ t, Leaves e s t ∧ ∀ fs, runUntil stops (e :: fs) s = runUntil stops fs t) ∨
       ∃ r, runEvent e s = .refused r ∧ ∀ fs, runUntil stops (e :: fs) s = .refused r)) := by
  cases hf : stops.find? fun c => e.isStep && c.metBy (runEvent e s) with
  | some c =>
    have hp := List.find?_some hf
    have hm := List.mem_of_find?_eq_some hf
    cases e <;> simp only [Event.isStep, Bool.false_and, Bool.true_and, Bool.false_eq_true] at hp
    exact .inl ⟨c, hm, rfl, hp, fun fs => by rw [runUntil, hf]; rfl⟩
  | none =>
    refine .inr ⟨?_, ?_⟩
    · rintro rfl c hc
      simpa only [Event.isStep, Bool.true_and, Bool.not_eq_true, runEvent_step] using List.find?_eq_none.1 hf c hc
    · cases hr : runEvent e s with
      | next t => exact .inl ⟨t, .inl hr, fun fs => by rw [runUntil, hf]; simp only [hr]⟩
      | fault f => exact .inl ⟨f.after, .inr ⟨f, hr, rfl⟩, fun fs => by rw [runUntil, hf]; simp only [hr]⟩
      | refused r => exact .inr ⟨r, rfl, fun fs => by rw [runUntil, hf]; simp only [hr]⟩

/-- A run that goes on is continued by the run over the events that follow. -/
theorem runUntil_append_of_ongoing {es fs : List Event} {s t : State} (h : runUntil stops es s = .ongoing t) :
    runUntil stops (es ++ fs) s = runUntil stops fs t := by
  induction es generalizing s with
  | nil => cases h; rfl
  | cons e es ih =>
    rcases runUntil_cons_cases (stops := stops) e s with ⟨c, _, _, _, he⟩ | ⟨_, ⟨u, _, hu⟩ | ⟨r, _, hr⟩⟩
    · rw [he] at h; cases h
    · rw [hu] at h; rw [List.cons_append, hu]; exact ih h
    · rw [hr] at h; cases h

/-- Under `NoTick` no step of the run changes `DT` by its tick. -/
theorem NoTick.dt_of_tick {es : List Event} {s u : State} (h : NoTick stops es s) (hu : TakesStepAt stops es s u) :
    (u.tick u.nextNow).dt = u.dt := by
  rcases h with h | h
  · simp [State.tick, h u hu]
  · simp [State.tick, h u hu, decrementFloor]

/-- A session without Host actions that follows the driver's order begins the driver loop's own events. -/
theorem HostQuiet.driverOrder {es : List Event} (hq : HostQuiet es) (h : FollowsDriverOrder es) :
    ∃ rates, es <+: driverEvents rates := by
  obtain ⟨rates, h⟩ := h
  rw [List.filter_eq_self.2 ?_] at h
  · exact ⟨rates, h⟩
  · intro e he
    cases e with
    | step => rfl
    | host a => exact absurd he (hq a)
    | pace rate => rfl

end Sys2Proof.Machine
end

