-- ==== Sys2Proof/Machine/Text.lean ====
section
/-! DEFINITION. The textual rendering of an instruction, in the assembly notation of 30_encoding.md R90; a pure function
of the instruction (R89; log 17). -/

namespace Sys2Proof.Machine

/-- One upper-case hexadecimal digit. -/
def hexDigit (n : Nibble) : String :=
  ["0", "1", "2", "3", "4", "5", "6", "7", "8", "9", "A", "B", "C", "D", "E", "F"].getD n.toNat ""

/-- A decimal number 0 to 15. -/
def decimalText (n : Nibble) : String :=
  ["0", "1", "2", "3", "4", "5", "6", "7", "8", "9", "10", "11", "12", "13", "14", "15"].getD n.toNat ""

/-- A register: `V` and one hexadecimal digit. -/
def regText (x : Nibble) : String := "V" ++ hexDigit x

/-- An immediate: `0x` and two hexadecimal digits. -/
def immText (kk : Byte) : String := "0x" ++ hexDigit (kk.extractLsb' 4 4) ++ hexDigit (kk.extractLsb' 0 4)

/-- An address: `0x` and three hexadecimal digits. -/
def addrText (nnn : Addr12) : String :=
  "0x" ++ hexDigit (nnn.extractLsb' 8 4) ++ hexDigit (nnn.extractLsb' 4 4) ++ hexDigit (nnn.extractLsb' 0 4)

/-- Two operands, separated by a comma and a space. -/
def pairText (a b : String) : String := a ++ ", " ++ b

/-- The assembly notation of an instruction (30_encoding.md R90). -/
def instrText : Instr → String
  | .sys nnn => "SYS " ++ addrText nnn
  | .clr => "CLR"
  | .rts => "RTS"
  | .jump nnn => "JUMP " ++ addrText nnn
  | .call nnn => "CALL " ++ addrText nnn
  | .ske x kk => "SKE " ++ pairText (regText x) (immText kk)
  | .skne x kk => "SKNE " ++ pairText (regText x) (immText kk)
  | .skre x y => "SKRE " ++ pairText (regText x) (regText y)
  | .load x kk => "LOAD " ++ pairText (regText x) (immText kk)
  | .add x kk => "ADD " ++ pairText (regText x) (immText kk)
  | .move x y => "MOVE " ++ pairText (regText x) (regText y)
  | .or x y => "OR " ++ pairText (regText x) (regText y)
  | .and x y => "AND " ++ pairText (regText x) (regText y)
  | .xor x y => "XOR " ++ pairText (regText x) (regText y)
  | .addr x y => "ADDR " ++ pairText (regText x) (regText y)
  | .sub x y => "SUB " ++ pairText (regText x) (regText y)
  | .shr x y => "SHR " ++ pairText (regText x) (regText y)
  | .shl x y => "SHL " ++ pairText (regText x) (regText y)
  | .skrne x y => "SKRNE " ++ pairText (regText x) (regText y)
  | .loadI nnn => "LOADI " ++ addrText nnn
  | .jumpI nnn => "JUMPI " ++ addrText nnn
  | .rand x kk => "RAND " ++ pairText (regText x) (immText kk)
  | .draw x y n => "DRAW " ++ pairText (regText x) (pairText (regText y) (decimalText n))
  | .skpr x => "SKPR " ++ regText x
  | .skup x => "SKUP " ++ regText x
  | .moved x => "MOVED " ++ regText x
  | .keyd x => "KEYD " ++ regText x
  | .loadd x => "LOADD " ++ regText x
  | .loads x => "LOADS " ++ regText x
  | .addi x => "ADDI " ++ regText x
  | .ldspr x => "LDSPR " ++ regText x
  | .bcd x => "BCD " ++ regText x
  | .stor x => "STOR " ++ regText x
  | .read x => "READ " ++ regText x

end Sys2Proof.Machine
end

