-- ==== Sys2Proof/Tests/Slice0.lean ====
section
/-! SUPPORT. Tests: every expected result is taken from spec/95_test_vectors.md or worked out by hand from the rule named,
and a witness for the hypotheses of each statement. -/

namespace Sys2Proof.Tests

open Sys2Proof.Machine

/-! ## Helpers -/

/-- The next state of an ending, where there is one. -/
def next? : Ending → Option State
  | .next t => some t
  | _ => none

/-- The fault of an ending, where there is one. -/
def fault? : Ending → Option Fault
  | .fault f => some f
  | _ => none

/-- What a fault says, without the state it carries. -/
def faultWord : Fault → Word ⊕ Byte
  | .memoryOutOfRange addr _ => .inl addr
  | .keyIndexOutOfRange k _ => .inr k

theorem exists_next {α : Type} {e : Ending} {f : State → α} {b : α} (h : (next? e).map f = some b) :
    ∃ t, e = .next t ∧ f t = b := by
  cases e <;> simp_all [next?]

theorem exists_fault_memory {e : Ending} {addr : Word} (h : (fault? e).map faultWord = some (.inl addr)) :
    ∃ t, e = .fault (.memoryOutOfRange addr t) := by
  cases e with
  | fault f => cases f <;> simp_all [fault?, faultWord]
  | _ => simp [fault?] at h

theorem exists_fault_key {e : Ending} {k : Byte} (h : (fault? e).map faultWord = some (.inr k)) :
    ∃ t, e = .fault (.keyIndexOutOfRange k t) := by
  cases e with
  | fault f => cases f <;> simp_all [fault?, faultWord]
  | _ => simp [fault?] at h

/-- `V[x] = b` in the start state. -/
def withReg (x : Nibble) (b : Byte) (s : State) : State := s.setReg x b

/-- `I = w` in the start state. -/
def withI (w : Word) (s : State) : State := s.setI w

/-- `pc = w` in the start state. -/
def withPc (w : Word) (s : State) : State := { s with pc := w }

/-- `mem[a], mem[a+1], ... = bs` in the start state. -/
def withMem (a : Nat) (bs : List Byte) (s : State) : State := { s with mem := Memory.writeBytes s.mem a bs }

/-- `KEY[k] = true` in the start state. -/
def withKey (k : Fin Config.nKeys) (s : State) : State := { s with key := s.key.set k true }

/-- The pixel at (r, c) inverted in the start state. -/
def withPixel (r : Fin Config.fbH) (c : Fin Config.fbW) (s : State) : State := { s with fb := togglePixel s.fb r c }

/-- One step on the word `w` at `pc`, at the time `now` in milliseconds. -/
def go (now w : Nat) (s : State) : Ending := stepAt (Config.milliseconds now) (s.withFetchWord 16 w)

/-- What a step ended with: `pc` and result. -/
def pcAndResult (t : State) : Word × StepResult := (t.pc, t.result)

/-! ## Well-formedness (30_encoding.md R86): an ill-formed term for each check -/

theorem test_wellFormed_refuses_sys_0E0 : (Instr.sys 0x0E0#12).wellFormed = false := by decide
theorem test_wellFormed_refuses_sys_0EE : (Instr.sys 0x0EE#12).wellFormed = false := by decide
theorem test_wellFormed_sys_0E1 : (Instr.sys 0x0E1#12).wellFormed = true := by decide

/-! ## Decoding and encoding: the words of 95_test_vectors.md 2.1, one for every constructor -/

theorem test_decode_sys : decode 0x0000#16 = .ok (.sys 0x000) ∧ decode 0x00E1#16 = .ok (.sys 0x0E1) := by decide
theorem test_decode_clr : decode 0x00E0#16 = .ok .clr := by decide
theorem test_decode_rts : decode 0x00EE#16 = .ok .rts := by decide
theorem test_decode_jump : decode 0x1ABC#16 = .ok (.jump 0xABC) := by decide
theorem test_decode_call : decode 0x2200#16 = .ok (.call 0x200) := by decide
theorem test_decode_ske : decode 0x3A7F#16 = .ok (.ske 10 0x7F) := by decide
theorem test_decode_skne : decode 0x4B80#16 = .ok (.skne 11 0x80) := by decide
theorem test_decode_skre : decode 0x5CD0#16 = .ok (.skre 12 13) := by decide
theorem test_decode_load : decode 0x6342#16 = .ok (.load 3 0x42) := by decide
theorem test_decode_add : decode 0x7FFF#16 = .ok (.add 15 0xFF) := by decide
theorem test_decode_move : decode 0x8AB0#16 = .ok (.move 10 11) := by decide
theorem test_decode_or : decode 0x8AB1#16 = .ok (.or 10 11) := by decide
theorem test_decode_and : decode 0x8AB2#16 = .ok (.and 10 11) := by decide
theorem test_decode_xor : decode 0x8AB3#16 = .ok (.xor 10 11) := by decide
theorem test_decode_addr : decode 0x8AB4#16 = .ok (.addr 10 11) := by decide
theorem test_decode_sub : decode 0x8AB5#16 = .ok (.sub 10 11) := by decide
theorem test_decode_shr : decode 0x8AB6#16 = .ok (.shr 10 11) := by decide
theorem test_decode_shl : decode 0x8ABE#16 = .ok (.shl 10 11) := by decide
theorem test_decode_skrne : decode 0x9EF0#16 = .ok (.skrne 14 15) := by decide
theorem test_decode_loadI : decode 0xA123#16 = .ok (.loadI 0x123) := by decide
theorem test_decode_jumpI : decode 0xBFFF#16 = .ok (.jumpI 0xFFF) := by decide
theorem test_decode_rand : decode 0xC10F#16 = .ok (.rand 1 0x0F) := by decide
theorem test_decode_draw : decode 0xDAB0#16 = .ok (.draw 10 11 0) ∧ decode 0xD00F#16 = .ok (.draw 0 0 15) := by decide
theorem test_decode_skpr : decode 0xE09E#16 = .ok (.skpr 0) := by decide
theorem test_decode_skup : decode 0xEFA1#16 = .ok (.skup 15) := by decide
theorem test_decode_moved : decode 0xF007#16 = .ok (.moved 0) := by decide
theorem test_decode_keyd : decode 0xF30A#16 = .ok (.keyd 3) := by decide
theorem test_decode_loadd : decode 0xF415#16 = .ok (.loadd 4) := by decide
theorem test_decode_loads : decode 0xF518#16 = .ok (.loads 5) := by decide
theorem test_decode_addi : decode 0xF91E#16 = .ok (.addi 9) := by decide
theorem test_decode_ldspr : decode 0xFA29#16 = .ok (.ldspr 10) := by decide
theorem test_decode_bcd : decode 0xFB33#16 = .ok (.bcd 11) := by decide
theorem test_decode_stor : decode 0xFC55#16 = .ok (.stor 12) := by decide
theorem test_decode_read : decode 0xFF65#16 = .ok (.read 15) := by decide

/-- The words of 2.1 that do not decode. -/
theorem test_decode_rejects :
    [0x5CD1#16, 0x512F#16, 0x5008#16, 0x9EFF#16, 0x9001#16, 0x8127#16, 0x8008#16, 0x812D#16, 0x812F#16, 0xE000#16,
      0xE09F#16, 0xE0A0#16, 0xE19D#16, 0xEFFF#16, 0xF000#16, 0xF008#16, 0xF01F#16, 0xF030#16, 0xF075#16, 0xF085#16,
      0xF1FF#16, 0xFFFF#16].all (fun w => decode w = .error (.unrecognizedSuffix w)) = true := by decide

theorem test_encode_words :
    [encode (.jump 0xABC), encode (.ske 10 0x7F), encode (.skre 12 13), encode (.shl 10 11), encode (.skrne 14 15),
      encode (.draw 10 11 0), encode (.skup 15), encode (.read 0)] =
    [0x1ABC#16, 0x3A7F#16, 0x5CD0#16, 0x8ABE#16, 0x9EF0#16, 0xDAB0#16, 0xEFA1#16, 0xF065#16] := by decide

/-- The opcode table's numbering of a 16-bit word is the word's own. -/
theorem test_decodeTableWord : decodeTableWord 16 0x6342 = some (.load 3 0x42) ∧ decodeTableWord 16 0x8127 = none := by
  decide

/-! ## Assembly notation (30_encoding.md R90) -/

theorem test_text : instrText (.load 3 0x42) = "LOAD V3, 0x42" ∧ instrText (.jump 0x20A) = "JUMP 0x20A" ∧
    instrText (.draw 1 2 15) = "DRAW V1, V2, 15" := by decide

/-! ## Group 0x0 (2.2) -/

theorem test_sys_halts : (next? (go 0 0x0000 State.reset)).map pcAndResult = some (0x200#16, .halted) := by decide
theorem test_sys_other_is_error : (next? (go 0 0x0123 State.reset)).map pcAndResult =
    some (0x200#16, .error (.unimplementedSysCall 0x123)) := by decide
theorem test_clr : (next? (go 0 0x00E0 (withPixel 31 63 State.reset))).map
    (fun t => (pixel t.fb 31 63, pcAndResult t)) = some (false, 0x202#16, .continueRedraw) := by decide
theorem test_rts : (next? (go 0 0x00EE (withPc 0x400 { State.reset with stack := [0x300, 0x204] }))).map
    (fun t => (t.stack, pcAndResult t)) = some ([0x204#16], 0x300#16, .cont) := by decide
theorem test_rts_empty : (next? (go 0 0x00EE State.reset)).map pcAndResult =
    some (0x200#16, .error .returnFromEmptyStack) := by decide

/-! ## Jumps and calls (2.3) -/

theorem test_jump : (next? (go 0 0x1ABC State.reset)).map pcAndResult = some (0xABC#16, .cont) := by decide
theorem test_jump_self : (next? (go 0 0x1200 State.reset)).map pcAndResult = some (0x200#16, .selfLoop) := by decide
theorem test_call : (next? (go 0 0x2300 (withPc 0xFFE { State.reset with stack := [0x111] }))).map
    (fun t => (t.stack, pcAndResult t)) = some ([0x1000#16, 0x111#16], 0x300#16, .cont) := by decide
theorem test_call_self : (next? (go 0 0x2200 State.reset)).map (fun t => (t.stack, pcAndResult t)) =
    some ([], 0x200#16, .selfLoop) := by decide
theorem test_jumpI : (next? (go 0 0xBFFF (withReg 0 0xFF State.reset))).map pcAndResult = some (0x10FE#16, .cont) := by
  decide
theorem test_jumpI_self : (next? (go 0 0xB1FE (withReg 0 0x02 State.reset))).map pcAndResult =
    some (0x200#16, .selfLoop) := by decide

/-! ## Skips (2.4) -/

theorem test_ske : (next? (go 0 0x3A7F (withReg 10 0x7F State.reset))).map pcAndResult = some (0x204#16, .cont) := by
  decide
theorem test_ske_over_bad_word : (next? (go 0 0x3000 (withMem 0x202 [0xFF, 0xFF] State.reset))).map pcAndResult =
    some (0x204#16, .cont) := by decide
theorem test_skne : (next? (go 0 0x4A7F (withReg 10 0x7F State.reset))).map pcAndResult = some (0x202#16, .cont) := by
  decide
theorem test_skre : (next? (go 0 0x5120 (withReg 1 9 (withReg 2 9 State.reset)))).map pcAndResult =
    some (0x204#16, .cont) := by decide
theorem test_skrne : (next? (go 0 0x9120 (withReg 1 9 (withReg 2 8 State.reset)))).map pcAndResult =
    some (0x204#16, .cont) := by decide

/-! ## Arithmetic and logic (2.5) -/

theorem test_move : (next? (go 0 0x8120 (withReg 1 0x11 (withReg 2 0x22 State.reset)))).map
    (fun t => (t.reg 1, t.reg 2, t.pc)) = some (0x22#8, 0x22#8, 0x202#16) := by decide
theorem test_or : (next? (go 0 0x8121 (withReg 1 0x0F (withReg 2 0xF0 (withReg 15 0x55 State.reset))))).map
    (fun t => (t.reg 1, t.reg 15)) = some (0xFF#8, 0x55#8) := by decide
theorem test_and : (next? (go 0 0x8122 (withReg 1 0x3C (withReg 2 0x0F (withReg 15 0x55 State.reset))))).map
    (fun t => (t.reg 1, t.reg 15)) = some (0x0C#8, 0x55#8) := by decide
theorem test_xor : (next? (go 0 0x8123 (withReg 1 0xFF (withReg 2 0x0F (withReg 15 0x55 State.reset))))).map
    (fun t => (t.reg 1, t.reg 15)) = some (0xF0#8, 0x55#8) := by decide
/-- A8 and A7, under both values of `FLAG_ORDER`. -/
theorem test_addr : [FlagOrder.flagLast, .flagFirst].all (fun o =>
    (next? (addrWith o 1 2 (withReg 1 0x80 (withReg 2 0x80 State.reset)))).map (fun t => (t.reg 1, t.reg 15)) =
      some (0x00#8, 0x01#8) ∧
    (next? (addrWith o 1 2 (withReg 1 1 (withReg 2 1 (withReg 15 1 State.reset))))).map
      (fun t => (t.reg 1, t.reg 15)) = some (0x02#8, 0x00#8)) = true := by decide
/-- A12a, A12b. -/
theorem test_addr_15 :
    (next? (addrWith .flagLast 15 1 (withReg 15 0xF0 (withReg 1 0x20 State.reset)))).map (fun t => t.reg 15) =
      some 0x01#8 ∧
    (next? (addrWith .flagFirst 15 1 (withReg 15 0xF0 (withReg 1 0x20 State.reset)))).map (fun t => t.reg 15) =
      some 0x10#8 := by decide
theorem test_sub : (next? (go 0 0x8125 (withReg 1 5 (withReg 2 7 (withReg 15 0x33 State.reset))))).map
    (fun t => (t.reg 1, t.reg 15)) = some (0xFE#8, 0x33#8) := by decide
/-- A18. -/
theorem test_shr : [FlagOrder.flagLast, .flagFirst].all (fun o =>
    (next? (shrWith o 1 2 (withReg 1 0xFF (withReg 2 0x02 (withReg 15 1 State.reset))))).map
      (fun t => (t.reg 1, t.reg 2, t.reg 15)) = some (0xFF#8, 0x7F#8, 0x00#8)) = true := by decide
/-- A23a, A23b. -/
theorem test_shr_15 :
    (next? (shrWith .flagLast 1 15 (withReg 1 6 (withReg 15 1 State.reset)))).map (fun t => t.reg 15) = some 0x01#8 ∧
    (next? (shrWith .flagFirst 1 15 (withReg 1 6 (withReg 15 1 State.reset)))).map (fun t => t.reg 15) =
      some 0x03#8 := by decide
/-- A20. -/
theorem test_shl : [FlagOrder.flagLast, .flagFirst].all (fun o =>
    (next? (shlWith o 1 2 (withReg 1 0x41 (withReg 2 0x80 State.reset)))).map
      (fun t => (t.reg 1, t.reg 2, t.reg 15)) = some (0x41#8, 0x82#8, 0x01#8)) = true := by decide
/-- A25a, A25b. -/
theorem test_shl_15 :
    (next? (shlWith .flagLast 15 15 (withReg 15 0xC0 State.reset))).map (fun t => t.reg 15) = some 0x01#8 ∧
    (next? (shlWith .flagFirst 15 15 (withReg 15 0xC0 State.reset))).map (fun t => t.reg 15) = some 0x80#8 := by decide

/-! ## Immediates and random (2.6) -/

theorem test_load : (next? (go 0 0x6342 State.reset)).map (fun t => (t.reg 3, t.pc)) = some (0x42#8, 0x202#16) := by
  decide
theorem test_add : (next? (go 0 0x73FF (withReg 3 1 (withReg 15 0x77 State.reset)))).map
    (fun t => (t.reg 3, t.reg 15)) = some (0x00#8, 0x77#8) := by decide
theorem test_loadI : (next? (go 0 0xAFFF State.reset)).map (fun t => t.i) = some 0x0FFF#16 := by decide
theorem test_rand_advances : (next? (go 0 0xC30F State.reset)).map (fun t => (t.pc, t.randDraws)) =
    some (0x202#16, 1) := by decide

/-! ## Draw (2.7) -/

/-- D3: glyph 7 wraps round both edges. -/
theorem test_draw_wraps : (next? (go 0 0xD125 (withI 0x023 (withReg 1 62 (withReg 2 30 State.reset))))).map (fun t =>
    ([pixel t.fb 30 62, pixel t.fb 30 63, pixel t.fb 30 0, pixel t.fb 30 1, pixel t.fb 31 1, pixel t.fb 0 0,
      pixel t.fb 1 63, pixel t.fb 2 63, pixel t.fb 30 2, pixel t.fb 31 0], t.reg 15)) =
    some ([true, true, true, true, true, true, true, true, false, false], 0x00#8) := by decide
/-- D12: the column is the old `VF`. -/
theorem test_draw_reads_flag_first : (next? (go 0 0xDF01
    (withI 0x300 (withMem 0x300 [0x80] (withReg 15 5 (withReg 0 2 (withPixel 2 5 State.reset))))))).map
    (fun t => (pixel t.fb 2 5, t.reg 15, t.pc)) = some (false, 0x01#8, 0x202#16) := by decide

/-! ## Keys (2.8) -/

theorem test_skpr : (next? (go 0 0xE39E (withReg 3 15 (withKey 15 State.reset)))).map pcAndResult =
    some (0x204#16, .cont) := by decide
theorem test_skpr_out_of_range : (fault? (go 0 0xE39E (withReg 3 16 State.reset))).map faultWord =
    some (.inr 16#8) := by decide
theorem test_skup : (next? (go 0 0xE3A1 (withReg 3 5 (withKey 5 State.reset)))).map pcAndResult =
    some (0x202#16, .cont) := by decide
theorem test_skup_out_of_range : (fault? (go 0 0xE3A1 (withReg 3 0xFF State.reset))).map faultWord =
    some (.inr 0xFF#8) := by decide
theorem test_keyd_waits : (next? (go 0 0xF30A State.reset)).map pcAndResult = some (0x200#16, .cont) := by decide
theorem test_keyd_least : (next? (go 0 0xF30A (withKey 7 (withKey 9 (withKey 12 State.reset))))).map
    (fun t => (t.reg 3, t.pc)) = some (0x07#8, 0x202#16) := by decide

/-! ## Delay counter and tick (2.9) -/

/-- T2: the tick comes first. -/
theorem test_moved_after_tick : (next? (go 16 0xF407 { State.reset with dt := 60 })).map
    (fun t => (t.reg 4, t.dt, t.lastTick)) = some (59#8, 59#8, 16000000) := by decide
/-- T3: 15 ms are too few. -/
theorem test_moved_no_tick : (next? (go 15 0xF407 { State.reset with dt := 60 })).map
    (fun t => (t.reg 4, t.lastTick)) = some (60#8, 0) := by decide
/-- T6. -/
theorem test_loadd : (next? (go 16 0xF415 (withReg 4 60 { State.reset with dt := 5 }))).map
    (fun t => (t.dt, t.lastTick)) = some (60#8, 16000000) := by decide
theorem test_loads : (next? (go 0 0xF518 (withReg 5 0xFF State.reset))).map (fun t => (t.dt, t.pc)) =
    some (0#8, 0x202#16) := by decide
/-- T4: no decrement below 0, but `last_tick` moves. -/
theorem test_tick_floor : (next? (go 100 0xF407 (withReg 4 9 State.reset))).map
    (fun t => (t.reg 4, t.dt, t.lastTick)) = some (0#8, 0#8, 100000000) := by decide
/-- T12: the tick is kept by a failing step. -/
theorem test_tick_kept_by_error : (next? (go 16 0x8127 { State.reset with dt := 2 })).map
    (fun t => (t.dt, t.result)) = some (1#8, .error (.decodeError 0x8127)) := by decide
/-- T13: a paused step changes nothing. -/
theorem test_paused : (next? (stepAt (Config.milliseconds 100) { State.reset with dt := 2, paused := true })).map
    (fun t => (t.dt, t.lastTick, pcAndResult t)) = some (2#8, 0, 0x200#16, .cont) := by decide

/-! ## Address register, glyphs, digits, store and load (2.10) -/

theorem test_addi_wraps : (next? (go 0 0xF21E (withI 0xFFFF (withReg 2 1 State.reset)))).map
    (fun t => (t.i, t.reg 15)) = some (0x0000#16, 0#8) := by decide
theorem test_addi_not_12_bits : (next? (go 0 0xF21E (withI 0x0FFF (withReg 2 1 State.reset)))).map (fun t => t.i) =
    some 0x1000#16 := by decide
theorem test_ldspr : (next? (go 0 0xF329 (withReg 3 15 State.reset))).map (fun t => t.i) = some 0x004B#16 := by decide
theorem test_ldspr_out_of_range : (next? (go 0 0xF329 (withReg 3 16 (withI 0x123 State.reset)))).map
    (fun t => (t.i, pcAndResult t)) = some (0x123#16, 0x200#16, .error (.spriteIndexOutOfRange 16)) := by decide
/-- X13, at the last address that leaves room. -/
theorem test_bcd : (next? (go 0 0xF233 (withI 0xFFD (withReg 2 156 State.reset)))).map
    (fun t => (t.readByte 0xFFD, t.readByte 0xFFE, t.readByte 0xFFF)) = some (1#8, 5#8, 6#8) := by decide
theorem test_bcd_out_of_range : (fault? (go 0 0xF233 (withI 0xFFE State.reset))).map faultWord =
    some (.inl 0xFFE#16) := by decide
/-- X18a and X18b with two registers, under both values of `MEMX_I_INCREMENT`. -/
theorem test_stor : [false, true].all (fun inc =>
    (next? (storWith inc 1 (withI 0x400 (withReg 0 0xAA (withReg 1 0xBB (withReg 2 0xCC State.reset)))))).map
      (fun t => (t.readByte 0x400, t.readByte 0x401, t.readByte 0x402, t.i)) =
      some (0xAA#8, 0xBB#8, 0x00#8, if inc then 0x402#16 else 0x400#16)) = true := by decide
theorem test_stor_out_of_range : (fault? (go 0 0xF155 (withI 0xFFF (withReg 0 0x77 State.reset)))).map faultWord =
    some (.inl 0xFFF#16) := by decide
/-- X25: the font read from address 0, under both values of `MEMX_I_INCREMENT`. -/
theorem test_read : [false, true].all (fun inc =>
    (next? (readWith inc 15 State.reset)).map (fun t => (t.reg 0, t.reg 1, t.reg 14, t.reg 15, t.i)) =
      some (0xF0#8, 0x90#8, 0xF0#8, 0xF0#8, if inc then 0x0010#16 else 0x0000#16)) = true := by decide
theorem test_read_out_of_range : (fault? (go 0 0xF165 (withI 0xFFF (withReg 0 5 State.reset)))).map faultWord =
    some (.inl 0xFFF#16) := by decide

/-! ## Fetch, create, reset, pacing -/

/-- The fetch of the last byte leaves memory. -/
theorem test_fetch_out_of_range : (fault? (stepAt 0 (withPc 0xFFF State.reset))).map faultWord = some (.inl 0xFFF#16) := by
  decide
/-- 10_state.md R32, R33: the last glyph's last byte, the ROM, zero elsewhere. -/
theorem test_create : ((create [0x63, 0x42] 0).toOption.map fun s =>
    (s.readByte 0x4F, s.readByte 0x50, s.readByte 0x200, s.readByte 0x201, s.readByte 0x202, Memory.wf s.mem)) =
    some (0x80#8, 0x00#8, 0x63#8, 0x42#8, 0x00#8, true) := by decide
/-- 70_reset_and_hazards.md R251: self-modified memory is reloaded, the pause flag stays. -/
theorem test_reset : ((create [0x63, 0x42] 0).toOption.map fun s =>
    let t := hostReset { withMem 0x200 [0xFF] (withReg 3 7 s) with paused := true }
    (t.readByte 0x200, t.reg 3, t.paused)) = some (0x63#8, 0x00#8, true) := by decide
/-- P2r: `RATE` 500, `boundary` 2.0 ms, called at 5.0 ms: 3 ms busy exceed the period, so no sleep. -/
theorem test_pace_overrun : ((paceAt 500 5000000 0 { State.reset with boundary := 2000000 }).toOption.map fun r =>
    (r.1.busy, r.1.total, r.2.boundary)) = some (3000000, 3000000, 5000000) := by decide
/-- What a run that ended says: the condition, the last step's next state, how many events were not performed. -/
def ended? : RunEnd → Option (EndCondition × Option State × Nat)
  | .ended c last rest => some (c, next? last, rest.length)
  | _ => none

/-- The state a run that goes on is at. -/
def ongoing? : RunEnd → Option State
  | .ongoing t => some t
  | _ => none

theorem exists_ongoing {α : Type} {r : RunEnd} {f : State → α} {b : α} (h : (ongoing? r).map f = some b) :
    ∃ t, r = .ongoing t ∧ f t = b := by
  cases r <;> simp_all [ongoing?]

/-- 70_reset_and_hazards.md R262: `LOAD V3, 0x42` goes on, the `Sys(0)` after it ends the loop, the third rate and the
second pacing are unused. -/
theorem test_driverLoop :
    (ended? (driverLoop [500, 500, 500] (State.reset.withFetchWord 16 0x6342))).map (fun r => (r.1, r.2.2)) =
      some (.halted, 3) ∧
    ((ended? (driverLoop [500, 500, 500] (State.reset.withFetchWord 16 0x6342))).bind (·.2.1)).map
      (fun t => (t.reg 3, t.clockReads, pcAndResult t)) = some (0x42#8, 4, 0x202#16, .halted) := by decide

/-- 40_step_cycle.md R109: the run ends at the first `Halted`; the `reset()` and the step after it are not performed. -/
theorem test_run_first_halted : (ended? (runUntil [.halted] [.host .togglePaused, .step, .host .togglePaused, .step,
    .host .reset, .step] State.reset)).map (fun r => (r.1, r.2.2)) = some (.halted, 2) := by decide

/-- 40_step_cycle.md R109: whether `SelfLoop` ends the run is the driver's choice. -/
theorem test_run_selfLoop :
    (ended? (runUntil EndCondition.all [.step, .step] (State.reset.withFetchWord 16 0x1200))).map (fun r => (r.1, r.2.2)) =
      some (.selfLoop, 1) ∧
    (ongoing? (runUntil [.halted, .error] [.step, .step] (State.reset.withFetchWord 16 0x1200))).map pcAndResult =
      some (0x200#16, .selfLoop) := by decide

/-! ## Witnesses: for each statement with hypotheses, a state and operands that meet all of them, clause by clause -/

/-- The reset state with the word `w` placed where the next step fetches it. -/
def placed (w : Nat) : State := State.reset.withFetchWord 16 w

/-- The same at the last address that leaves room for a word. -/
def placedLast (w : Nat) : State := (withPc 0xFFE State.reset).withFetchWord 16 w

theorem witness_DecodeOfEncode :
    (Instr.draw 1 2 5).wellFormed = true ∧ (Instr.sys 0x0E1).wellFormed = true ∧ (Instr.sys 0x0ED).wellFormed = true ∧
      decode 0xD125#16 = .ok (.draw 1 2 5) := by decide

theorem witness_EncodeOfDecode : decode 0x6342#16 = .ok (.load 3 0x42) ∧ decode 0x6342#16 = .ok (.load 3 0x42) := by
  decide

theorem witness_DecodeErrorWords : decode 0x8127#16 = .error (.unrecognizedSuffix 0x8127#16) := by decide

theorem witness_StepRunsDecoded : (placedLast 0xD125).CanFetch ∧ decode (placedLast 0xD125).wordAtPc = .ok (.draw 1 2 5) := by
  decide

/-- 16 milliseconds tick, one nanosecond less does not. -/
theorem witness_TickRule : (16000000 - State.reset.lastTick ≥ 16000000) ∧ (15999999 - State.reset.lastTick < 16000000) := by
  decide

theorem witness_TimeIsMonotone : ∃ t, step State.reset = .next t ∧ t.result = .halted :=
  exists_next (f := State.result) (by decide)

/-- Two steps with a Host action between them. -/
theorem witness_TimeIsMonotone_run :
    ([.step, .host .togglePaused, .step] : List Event) = [] ++ .step :: ([.host .togglePaused] ++ .step :: []) ∧
    (∃ u, runUntil EndCondition.all [] (placed 0x6342) = .ongoing u) ∧
    ∃ v, runUntil EndCondition.all ([] ++ .step :: [.host .togglePaused]) (placed 0x6342) = .ongoing v ∧ v.paused = true :=
  ⟨rfl, ⟨_, rfl⟩, exists_ongoing (f := State.paused) (by decide)⟩

theorem witness_PausedStepDoesNothing : (withPc 0xFFFF { State.reset with paused := true }).paused = true := by decide

theorem witness_DecodeErrorStep :
    (placedLast 0x8127).CanFetch ∧ decode (placedLast 0x8127).wordAtPc = .error (.unrecognizedSuffix 0x8127#16) := by
  decide

theorem witness_FetchOutsideFaults :
    (withPc 0xFFF State.reset).paused = false ∧ 4096 < (withPc 0xFFF State.reset).pc.toNat + 2 := by decide

theorem witness_FetchReadsWhatWasStored :
    Memory.wf (withPc 0xFFE State.reset).mem = true ∧ (withPc 0xFFE State.reset).pc.toNat + 2 ≤ 4096 ∧
      decode 0xD125#16 = .ok (.draw 1 2 5) := by decide

theorem witness_ErrorStepKeepsState :
    ∃ t, step (placed 0x00EE) = .next t ∧ t.result = .error .returnFromEmptyStack :=
  exists_next (f := State.result) (by decide)

theorem witness_FaultStepKeepsState_memory :
    (∃ u, step (withPc 0xFFF State.reset) = .fault (.memoryOutOfRange 0xFFF#16 u)) ∧
      (∃ u, step (withI 0xFFE (placed 0xF233)) = .fault (.memoryOutOfRange 0xFFE#16 u)) :=
  ⟨exists_fault_memory (by decide), exists_fault_memory (by decide)⟩

theorem witness_FaultStepKeepsState_key :
    ∃ u, step (withReg 3 16 (placed 0xE39E)) = .fault (.keyIndexOutOfRange 16#8 u) := exists_fault_key (by decide)

theorem witness_FailingStepFailsAgain :
    (∃ t, step (placed 0x8127) = .next t ∧ t.result = .error (.decodeError 0x8127#16)) ∧
    (∃ t, step (withPc 0x1000 State.reset) = .fault (.memoryOutOfRange 0x1000#16 t)) ∧
    (∃ t, step (withReg 3 0xFF (placed 0xE3A1)) = .fault (.keyIndexOutOfRange 0xFF#8 t)) :=
  ⟨exists_next (f := State.result) (by decide), exists_fault_memory (by decide), exists_fault_key (by decide)⟩

/-- One step for each of the four errors of the source. -/
theorem witness_ErrorPriority_errors :
    (∃ t, step (placed 0x8127) = .next t ∧ t.result = .error (.decodeError 0x8127#16)) ∧
    (∃ t, step (placed 0x00EE) = .next t ∧ t.result = .error .returnFromEmptyStack) ∧
    (∃ t, step (withReg 3 16 (placed 0xF329)) = .next t ∧ t.result = .error (.spriteIndexOutOfRange 16#8)) ∧
    (∃ t, step (placed 0x0001) = .next t ∧ t.result = .error (.unimplementedSysCall 0x001#12)) :=
  ⟨exists_next (f := State.result) (by decide), exists_next (f := State.result) (by decide),
    exists_next (f := State.result) (by decide), exists_next (f := State.result) (by decide)⟩

/-- One step for each access that leaves memory, and for the key code. -/
theorem witness_ErrorPriority_faults :
    (∃ t, step (withPc 0xFFF State.reset) = .fault (.memoryOutOfRange 0xFFF#16 t)) ∧
    (∃ t, step (withI 0xFFF (placed 0xD012)) = .fault (.memoryOutOfRange 0xFFF#16 t)) ∧
    (∃ t, step (withI 0xFFE (placed 0xF233)) = .fault (.memoryOutOfRange 0xFFE#16 t)) ∧
    (∃ t, step (withI 0xFFF (placed 0xF155)) = .fault (.memoryOutOfRange 0xFFF#16 t)) ∧
    (∃ t, step (withI 0xFFF (placed 0xF165)) = .fault (.memoryOutOfRange 0xFFF#16 t)) ∧
    (∃ t, step (withReg 3 16 (placed 0xE39E)) = .fault (.keyIndexOutOfRange 16#8 t)) :=
  ⟨exists_fault_memory (by decide), exists_fault_memory (by decide), exists_fault_memory (by decide),
    exists_fault_memory (by decide), exists_fault_memory (by decide), exists_fault_key (by decide)⟩

theorem witness_HaltedStaysHalted : State.reset.CanFetch ∧ State.reset.wordAtPc = 0x0000#16 := by decide

/-- A state whose next step, a `Load`, comes at 16 milliseconds or later after its last tick. -/
def tickIsDue : State := { placed 0x6000 with clock := 16000000 }

/-- A state whose next step, a `Load`, comes at the very time of its last tick. -/
def tickIsNotDue : State := { placed 0x6000 with lastTick := (placed 0x6000).nextNow }

theorem witness_DelayCounterFallsByTheTick_due :
    (∃ t, step tickIsDue = .next t ∧ t.pc = 0x202#16) ∧ tickIsDue.paused = false ∧
    (∀ x, decode tickIsDue.wordAtPc ≠ .ok (.loadd x)) ∧ tickIsDue.nextNow - tickIsDue.lastTick ≥ 16000000 := by
  have h1 : tickIsDue.clock = 16000000 := by decide
  have h2 : tickIsDue.lastTick = 0 := by decide
  have h3 := clock_le_nextNow tickIsDue
  exact ⟨exists_next (f := State.pc) (by decide), by decide, by decide, by omega⟩

theorem witness_DelayCounterFallsByTheTick_notDue :
    (∃ t, step tickIsNotDue = .next t ∧ t.pc = 0x202#16) ∧ tickIsNotDue.paused = false ∧
    (∀ x, decode tickIsNotDue.wordAtPc ≠ .ok (.loadd x)) ∧ tickIsNotDue.nextNow - tickIsNotDue.lastTick < 16000000 := by
  have h : tickIsNotDue.nextNow = tickIsNotDue.lastTick := rfl
  exact ⟨exists_next (f := State.pc) (by decide), by decide, by decide, by omega⟩

/-- One nanosecond before the tick is due, after a Host action. -/
theorem witness_NoTickWithinInterval :
    ({ State.reset with clock := 15999999 } : State).Inv ∧
    ∃ t, runEvents [.host .togglePaused] { State.reset with clock := 15999999 } = .next t ∧
      t.clock - State.reset.lastTick < 16000000 := by
  obtain ⟨t, h1, h2⟩ := exists_next (e := runEvents [.host .togglePaused] { State.reset with clock := 15999999 })
    (f := State.clock) (b := 15999999) (by decide)
  exact ⟨by decide, t, h1, by rw [h2]; decide⟩

theorem witness_StepKeepsInv : (placed 0x6342).Inv ∧ ∃ t, step (placed 0x6342) = .next t ∧ t.reg 3 = 0x42#8 :=
  ⟨by decide, exists_next (f := fun t => t.reg 3) (by decide)⟩

/-- `Rts` to the largest return address, and a paused step at the largest `pc`. -/
theorem witness_StepKeepsAddressBounds :
    ({ State.reset with mem := [(0x201, 0xEE)], stack := [0x1000] }.AddressesBounded ∧
      ∃ t, step { State.reset with mem := [(0x201, 0xEE)], stack := [0x1000] } = .next t ∧ t.pc = 0x1000#16) ∧
    ((withPc 0x10FE { State.reset with paused := true }).AddressesBounded ∧
      ∃ t, step (withPc 0x10FE { State.reset with paused := true }) = .next t ∧ t.pc = 0x10FE#16) :=
  ⟨⟨⟨by decide, fun a ha => by rw [List.mem_singleton.1 ha]; decide⟩, exists_next (f := State.pc) (by decide)⟩,
    ⟨by decide, fun a ha => by cases ha⟩, exists_next (f := State.pc) (by decide)⟩

theorem witness_SessionKeepsInvariants :
    State.reset.Inv ∧ State.reset.AddressesBounded ∧
    ∃ t, runEvents [.step, .host .togglePaused, .pace 500, .host .reset] State.reset = .next t ∧ t.pc = 0x200#16 :=
  ⟨by decide, ⟨by decide, fun a ha => by cases ha⟩, exists_next (f := State.pc) (by decide)⟩

theorem witness_StepLeavesHostState : ∃ t, step (placed 0x6342) = .next t ∧ t.pc = 0x202#16 :=
  exists_next (f := State.pc) (by decide)

/-- `Move` is none of the instructions any clause excepts. -/
theorem witness_WritersOfEachPiece :
    (∃ t, exec (.move 1 2) State.reset = .next t ∧ t.pc = 0x202#16) ∧ Instr.move 1 2 ≠ .clr ∧ Instr.move 1 2 ≠ .rts ∧
    (∀ x y n, Instr.move 1 2 ≠ .draw x y n) ∧ (∀ x, Instr.move 1 2 ≠ .bcd x) ∧ (∀ x, Instr.move 1 2 ≠ .stor x) ∧
    (∀ nnn, Instr.move 1 2 ≠ .call nnn) ∧ (∀ x, Instr.move 1 2 ≠ .loadd x) ∧ (∀ nnn, Instr.move 1 2 ≠ .loadI nnn) ∧
    (∀ x, Instr.move 1 2 ≠ .addi x) ∧ (∀ x, Instr.move 1 2 ≠ .ldspr x) ∧ (∀ x, Instr.move 1 2 ≠ .read x) ∧
    (∀ x kk, Instr.move 1 2 ≠ .rand x kk) :=
  ⟨exists_next (f := State.pc) (by decide), by simp⟩

theorem witness_WritersOfRegisters :
    (∃ t, exec (.read 14) State.reset = .next t ∧ t.pc = 0x202#16) ∧ 0xF#4 ∉ destinations (.read 14) ∧
      0xF#4 ∈ destinations (.read 0xF) ∧ 0xF#4 ∈ destinations (.draw 1 2 3) :=
  ⟨exists_next (f := State.pc) (by decide), by decide, by decide, by decide⟩

theorem witness_OutcomeOfEachInstruction :
    (∃ t, exec .rts State.reset = .next t ∧ t.result = .error .returnFromEmptyStack) ∧
    (∃ t, exec (.jump 0x200) State.reset = .next t ∧ t.result = .selfLoop) ∧
    (∃ t, exec (.sys 0) State.reset = .next t ∧ t.result = .halted) ∧
    (∃ t, exec .clr State.reset = .next t ∧ t.result = .continueRedraw) :=
  ⟨exists_next (f := State.result) (by decide), exists_next (f := State.result) (by decide),
    exists_next (f := State.result) (by decide), exists_next (f := State.result) (by decide)⟩

theorem witness_SysHaltsOrErrors :
    ((0x001#12 : Addr12) ≠ 0 ∧ 0x001#12 ≠ 0x0E0#12 ∧ 0x001#12 ≠ 0x0EE#12) ∧
      (0xFFF#12 : Addr12) ≠ 0 ∧ 0xFFF#12 ≠ 0x0E0#12 ∧ 0xFFF#12 ≠ 0x0EE#12 := by decide

theorem witness_RtsPopsOrErrors :
    { State.reset with stack := [0x1000, 0x204] }.stack = 0x1000#16 :: [0x204#16] ∧ State.reset.stack = [] := by decide

/-- The `Call` at the last address of memory pushes 0x1000. -/
theorem witness_RtsUndoesCall :
    ∃ t, exec (.call 0x300) (withPc 0xFFE State.reset) = .next t ∧ (t.result, t.stack) = (.cont, [0x1000#16]) :=
  exists_next (f := fun t => (t.result, t.stack)) (by decide)

/-- A start state that all six taken skips share: `V[1]` differs from `V[0]`, and key 0 is pressed or not. -/
def skipStart (key0 : Bool) (w : Nat) : State :=
  let s := (withReg 1 7 State.reset).withFetchWord 16 w
  { s with key := s.key.set 0 key0 }

/-- The same machine with an undecodable word after the skip, where the other has 0x0000. -/
def skipOther (s : State) : State := withMem 0x202 [0xFF, 0xFF] s

theorem witness_SkippedWordIsNotFetched_compare :
    (decode (skipStart false 0x3000).wordAtPc = .ok (.ske 0 0) ∧ (skipStart false 0x3000).reg 0 = 0x00#8) ∧
    (decode (skipStart false 0x4101).wordAtPc = .ok (.skne 1 1) ∧ (skipStart false 0x4101).reg 1 ≠ 0x01#8) ∧
    (decode (skipStart false 0x5110).wordAtPc = .ok (.skre 1 1)) ∧
    decode (skipStart false 0x9100).wordAtPc = .ok (.skrne 1 0) ∧
    (skipStart false 0x9100).reg 1 ≠ (skipStart false 0x9100).reg 0 := by decide

theorem witness_SkippedWordIsNotFetched_fetch :
    (∀ w ∈ [0x3000, 0x4101, 0x5110, 0x9100, 0xE0A1], (skipStart false w).CanFetch ∧
      (skipOther (skipStart false w)).wordAtPc = (skipStart false w).wordAtPc) ∧
    (skipStart true 0xE09E).CanFetch ∧
    (skipOther (skipStart true 0xE09E)).wordAtPc = (skipStart true 0xE09E).wordAtPc := by decide

theorem witness_SkippedWordIsNotFetched_memory (s : State) : skipOther s = { s with mem := (skipOther s).mem } := rfl

theorem witness_SkippedWordIsNotFetched_keys :
    (decode (skipStart true 0xE09E).wordAtPc = .ok (.skpr 0) ∧
      ∃ h : ((skipStart true 0xE09E).reg 0).toNat < Config.nKeys,
        (skipStart true 0xE09E).key[((skipStart true 0xE09E).reg 0).toNat] = true) ∧
    (decode (skipStart false 0xE0A1).wordAtPc = .ok (.skup 0) ∧
      ∃ h : ((skipStart false 0xE0A1).reg 0).toNat < Config.nKeys,
        (skipStart false 0xE0A1).key[((skipStart false 0xE0A1).reg 0).toNat] = false) :=
  ⟨⟨by decide, by decide, rfl⟩, by decide, by decide, rfl⟩

/-- One row at the last address; no row at the largest `I`; glyph 0 covers (0, 0) and not (0, 4). -/
theorem witness_DrawInvertsCoveredPixels :
    ((withI 0xFFF State.reset).dataAddr 0 + (1#4).toNat ≤ 4096) ∧ (0#4 : Nibble) = 0 ∧
    SpriteCovers State.reset 0 0 0 5 0 0 ∧ ¬ SpriteCovers State.reset 0 0 0 5 0 4 := by
  refine ⟨by decide, rfl, ⟨0, by decide, 0, by decide, by decide, by decide, by decide⟩, ?_⟩
  rintro ⟨row, hrow, col, hcol, h, hr, hc⟩
  have h4 : col = 4 := by
    change (0 + col) % 64 = 4 at hc
    omega
  have h0 : row = 0 := by
    change (0 + row) % 32 = 0 at hr
    omega
  subst h4 h0
  revert h; decide

/-- After a first `Draw` of glyph 0 what it read is still there, and pixel (0, 0) is set. -/
theorem witness_DrawTwiceRestores :
    ∃ t, exec (.draw 0 1 5) State.reset = .next t ∧ (t.i == State.reset.i && t.reg 0 == State.reset.reg 0 &&
      t.reg 1 == State.reset.reg 1 && t.mem == State.reset.mem && pixel t.fb 0 0) = true :=
  exists_next (f := fun t => t.i == State.reset.i && t.reg 0 == State.reset.reg 0 && t.reg 1 == State.reset.reg 1 &&
    t.mem == State.reset.mem && pixel t.fb 0 0) (by decide)

theorem witness_KeySkips :
    ((withReg 3 15 State.reset).reg 3).toNat < Config.nKeys ∧
      (withKey 15 State.reset).key[15] = true ∧ State.reset.key[15] = false := by decide

theorem witness_KeyCodeOutOfRangeFaults : 15 < ((withReg 3 16 State.reset).reg 3).toNat := by decide

/-- Key 15 alone; keys 7, 9 and 12; no key. -/
theorem witness_KeydWaitsThenStores :
    ((withKey 15 State.reset).key[(15 : Fin Config.nKeys)] = true ∧
      ∀ j : Fin Config.nKeys, j < 15 → (withKey 15 State.reset).key[j] = false) ∧
    ((withKey 7 (withKey 9 (withKey 12 State.reset))).key[(7 : Fin Config.nKeys)] = true ∧
      ∀ j : Fin Config.nKeys, j < 7 → (withKey 7 (withKey 9 (withKey 12 State.reset))).key[j] = false) ∧
    ∀ k : Fin Config.nKeys, State.reset.key[k] = false := by decide

theorem witness_TickPrecedesInstruction :
    (placed 0xF407).CanFetch ∧ decode (placed 0xF407).wordAtPc = .ok (.moved 4) ∧
      (placed 0xF415).CanFetch ∧ decode (placed 0xF415).wordAtPc = .ok (.loadd 4) := by decide

theorem witness_LdsprPointsAtGlyph :
    ((withReg 3 15 State.reset).reg 3).toNat ≤ 15 ∧ 15 < ((withReg 3 16 State.reset).reg 3).toNat := by decide

theorem witness_BcdStoresDigits :
    Memory.wf (withI 0xFFD State.reset).mem = true ∧ (withI 0xFFD State.reset).dataAddr 2 < 4096 := by decide

theorem witness_StorStoresRegisters :
    Memory.wf (withI 0xFF0 State.reset).mem = true ∧ (withI 0xFF0 State.reset).dataAddr (15#4).toNat < 4096 := by decide

theorem witness_ReadLoadsRegisters : (withI 0xFF0 State.reset).dataAddr (15#4).toNat < 4096 := by decide

theorem witness_ReadAfterStor :
    Memory.wf (withI 0xFF0 State.reset).mem = true ∧
      ∃ t, exec (.stor 15) (withI 0xFF0 (withReg 15 7 State.reset)) = .next t ∧ t.readByte 0xFFF = 7#8 :=
  ⟨by decide, exists_next (f := fun t => t.readByte 0xFFF) (by decide)⟩

theorem witness_AccessOutsideFaults :
    ((1#4 : Nibble) ≠ 0 ∧ 4096 < (withI 0x1000 State.reset).dataAddr 0 + (1#4).toNat) ∧
    4096 < (withI 0xFFE State.reset).dataAddr 0 + 3 ∧
    4096 < (withI 0xFF1 State.reset).dataAddr 0 + (15#4).toNat + 1 := by decide

theorem witness_ResetMeetsInvariants : ∃ s, create [0x63, 0x42] 7 = .ok s := ⟨_, rfl⟩

/-- The longest ROM that fits and the next longer one (70_reset_and_hazards.md R255; H5, H6). -/
theorem witness_CreateBuildsImage :
    (List.replicate 3584 (0xFF : Byte)).length ≤ 3584 ∧ 3584 < (List.replicate 3585 (0xFF : Byte)).length := by
  simp only [List.length_replicate]; decide

/-- A machine that has run on: another pc, and paused. -/
theorem witness_HostResetRebuilds :
    ∃ c, create [0x63, 0x42] 7 = .ok c ∧ { withPc 0x300 c with paused := true }.rom = [0x63, 0x42] := ⟨_, rfl, rfl⟩

/-- One run for each end condition. -/
theorem witness_RunEndsAtFirstEndCondition_ended :
    (ended? (runUntil EndCondition.all [.step] State.reset)).map (·.1) = some .halted ∧
    (ended? (runUntil EndCondition.all [.step] (placed 0x1200))).map (·.1) = some .selfLoop ∧
    (ended? (runUntil EndCondition.all [.step] (placed 0x00EE))).map (·.1) = some .error ∧
    (ended? (runUntil EndCondition.all [.step] (withPc 0xFFF State.reset))).map (·.1) = some .error := by decide

/-- A run that goes on after a step with a next state, and one that goes on after a fault. -/
theorem witness_RunEndsAtFirstEndCondition_ongoing :
    (∃ t, runUntil EndCondition.all [.step] (placed 0x6342) = .ongoing t ∧ t.pc = 0x202#16) ∧
    (∃ v, step (placed 0x6342) = .next v ∧ v.result = .cont) ∧
    (∃ t, runUntil [.halted] [.step] (withPc 0xFFF State.reset) = .ongoing t ∧ t.pc = 0xFFF#16) ∧
    (∃ t, step (withPc 0xFFF State.reset) = .fault (.memoryOutOfRange 0xFFF t)) ∧
    TakesStepAt EndCondition.all [.step] (placed 0x6342) (placed 0x6342) ∧
    TakesStepAt [.halted] [.step] (withPc 0xFFF State.reset) (withPc 0xFFF State.reset) :=
  ⟨exists_ongoing (f := State.pc) (by decide), exists_next (f := State.result) (by decide),
    exists_ongoing (f := State.pc) (by decide), exists_fault_memory (by decide), ⟨[], [], rfl, rfl⟩, ⟨[], [], rfl, rfl⟩⟩

theorem witness_PaceSleepsTheRemainder : 0 < 500 ∧ State.reset.boundary ≤ 0 := by decide

end Sys2Proof.Tests
end

section
/-! SUPPORT. What one instruction and one step can change: the pieces each instruction writes, one frame rule per state
operation, and where `pc`, the call stack and memory can stand afterwards. -/

namespace Sys2Proof.Machine

variable {i : Instr} {s t u : State} {regs regs' : List Nibble} {parts parts' : List Part}

/-- The pieces of state other than the data registers that an instruction may write; the counterpart of
`destinations`. -/
def writtenParts : Instr → List Part
  | .clr => [.fb]
  | .rts => [.stack]
  | .call _ => [.stack]
  | .loadI _ => [.i]
  | .rand _ _ => [.randDraws]
  | .draw _ _ _ => [.fb]
  | .loadd _ => [.dt]
  | .addi _ => [.i]
  | .ldspr _ => [.i]
  | .bcd _ => [.mem]
  | .stor _ => [.mem, .i]
  | .read _ => [.i]
  | _ => []

/-- From `s` to `t` at most `regs` and `parts` change: a `Frame` in which memory, where it is kept, is the same list of
cells. -/
structure Changes (s t : State) (regs : List Nibble) (parts : List Part) : Prop where
  frame : Frame s t regs parts
  mem : Part.mem ∉ parts → t.mem = s.mem

/-! Frame rules, one per state operation. -/

/-- An operation that leaves the data registers alone. -/
theorem Changes.of_v_eq (hv : t.v = s.v) (hparts : ∀ p, p ∉ parts → p.Same s t)
    (hmem : Part.mem ∉ parts → t.mem = s.mem) : Changes s t regs parts :=
  ⟨⟨fun r _ => reg_congr hv r, hparts⟩, hmem⟩

/-- Writing `pc` and the result, which are no `Part`, changes no frame. -/
theorem Changes.withPcResult (h : Changes s u regs parts) (pc : Word) (r : StepResult) :
    Changes s { u with pc := pc, result := r } regs parts := ⟨h.frame, h.mem⟩

theorem Changes.refl (s : State) : Changes s s regs parts :=
  .of_v_eq rfl (fun p _ => by cases p <;> simp [Part.Same]) fun _ => rfl

theorem Part.Same.trans {p : Part} (h : p.Same s u) (h' : p.Same u t) : p.Same s t := by
  cases p
  case mem => exact fun a => (h' a).trans (h a)
  all_goals exact Eq.trans h' h

theorem Changes.trans (h : Changes s u regs parts) (h' : Changes u t regs' parts') :
    Changes s t (regs ++ regs') (parts ++ parts') where
  frame := by
    simp only [Frame, List.mem_append, not_or]
    exact ⟨fun r hr => (h'.frame.1 r hr.2).trans (h.frame.1 r hr.1),
      fun p hp => (h.frame.2 p hp.1).trans (h'.frame.2 p hp.2)⟩
  mem hm := by
    simp only [List.mem_append, not_or] at hm
    exact (h'.mem hm.2).trans (h.mem hm.1)

theorem changes_setReg (s : State) (x : Nibble) (b : Byte) : Changes s (s.setReg x b) [x] [] where
  frame := ⟨fun r hr => reg_setReg_ne s (by simpa using hr) b,
    fun p _ => by cases p <;> simp [Part.Same, State.readByte]⟩
  mem _ := rfl

theorem changes_setResultAndFlag (s : State) (o : FlagOrder) (d : Nibble) (b : Byte) (f : Bool) :
    Changes s (s.setResultAndFlag o d b f) [d, flagReg] [] where
  frame := by
    refine ⟨fun r hr => ?_, fun p _ => by cases p <;> simp [Part.Same, State.readByte]⟩
    obtain ⟨hd, hf⟩ : r ≠ d ∧ r ≠ flagReg := by simpa using hr
    simp [reg_setResultAndFlag, hd, hf]
  mem _ := rfl

/-- `Read(x)` writes the registers up to `x`. -/
theorem mem_destinations_read {r x : Nibble} : r ∈ destinations (.read x) ↔ r.toNat ≤ x.toNat := by
  simp only [destinations, rangeLength, List.mem_map, List.mem_range]
  constructor
  · rintro ⟨k, hk, rfl⟩
    exact (BitVec.toNat_ofNat k 4 ▸ Nat.mod_le k _).trans (Nat.lt_succ_iff.1 hk)
  · exact fun h => ⟨r.toNat, Nat.lt_succ_iff.2 h, by simp⟩

theorem changes_fillRegs (s : State) (x : Nibble) {bs : List Byte} (hlen : bs.length = rangeLength x) :
    Changes s (s.fillRegs 0 bs) (destinations (.read x)) [] where
  frame := by
    refine ⟨fun r hr => ?_, fun p _ => by cases p <;> simp [Part.Same, State.readByte]⟩
    have hr : bs.length ≤ r.toNat := by rw [hlen]; exact Nat.not_le.1 (mt mem_destinations_read.2 hr)
    have hx : 0 + bs.length ≤ 16 := by rw [hlen]; simpa [rangeLength] using x.isLt
    simp [reg_fillRegs s 0 bs hx, hr]
  mem _ := fillRegs_mem s 0 bs

theorem changes_setI (s : State) (w : Word) : Changes s (s.setI w) [] [.i] :=
  .of_v_eq rfl (fun p hp => by cases p <;> simp_all [Part.Same, State.readByte]) fun _ => rfl

theorem Changes.bumpI (h : Changes s u regs parts) {c : Bool} {n : Nat} :
    Changes s (u.bumpI c n) regs (parts ++ [.i]) :=
  List.append_nil regs ▸ h.trans (changes_setI u _)

theorem changes_setDt (s : State) (b : Byte) : Changes s (s.setDt b) [] [.dt] :=
  .of_v_eq rfl (fun p hp => by cases p <;> simp_all [Part.Same, State.readByte]) fun _ => rfl

theorem changes_stack (s : State) (ws : List Word) : Changes s { s with stack := ws } [] [.stack] :=
  .of_v_eq rfl (fun p hp => by cases p <;> simp_all [Part.Same, State.readByte]) fun _ => rfl

theorem changes_mem (s : State) (m : List Host.Cell) : Changes s { s with mem := m } [] [.mem] :=
  .of_v_eq rfl (fun p hp => by cases p <;> simp_all [Part.Same]) fun hm => by simp at hm

theorem changes_fb (s : State) (fb : Framebuffer) : Changes s { s with fb := fb } [] [.fb] :=
  .of_v_eq rfl (fun p hp => by cases p <;> simp_all [Part.Same, State.readByte]) fun _ => rfl

theorem changes_draw8 (s : State) : Changes s s.draw8.2 [] [.randDraws] :=
  .of_v_eq rfl (fun p hp => by cases p <;> simp_all [Part.Same, State.readByte, State.draw8]) fun _ => rfl

theorem changes_tick (s : State) (now : Nat) : Changes s (s.tick now) [] tickParts :=
  .of_v_eq rfl (fun p hp => by cases p <;> simp_all [Part.Same, State.readByte, tickParts]) fun _ => rfl

/-! One instruction. -/

/-- Where `pc` can stand after an instruction that answers a next state (40_step_cycle.md R106). -/
inductive NextPc (i : Instr) (s t : State) : Prop
  | same (h : t.pc = s.pc)
  | next (h : t.pc = s.pc + 2#16)
  | skip (h : t.pc = s.pc + 4#16)
  | jump (h : jumpTarget? i s = some t.pc)
  | ret (h : s.stack = t.pc :: t.stack)

theorem stay_cases {r : StepResult} (h : stay r s = .next t) : Changes s t regs parts ∧ NextPc i s t := by
  obtain rfl := stay_next.1 h
  exact ⟨(Changes.refl s).withPcResult s.pc r, .same rfl⟩

theorem skipIf_cases {c : Bool} (h : skipIf c s = .next t) : Changes s t regs parts ∧ NextPc i s t := by
  obtain rfl := skipIf_next.1 h
  refine ⟨(Changes.refl s).withPcResult _ _, ?_⟩
  cases c
  · exact .next rfl
  · exact .skip rfl

/-- An instruction that makes its writes in `u` and advances. -/
theorem Changes.advance_cases (hu : Changes s u regs parts) {r : StepResult}
    (h : advanceWith r u = .next t) (hpc : u.pc = s.pc) : Changes s t regs parts ∧ NextPc i s t := by
  obtain rfl := advanceWith_next.1 h
  exact ⟨hu.withPcResult _ _, .next (congrArg (· + 2#16) hpc)⟩

/-- A jump that makes its writes in `u`, but none on a self-loop. -/
theorem Changes.jumpOrLoop_cases (hu : Changes s u regs parts) {target : Word} (hj : jumpTarget? i s = some target)
    (h : jumpOrLoop target u s = .next t) : Changes s t regs parts ∧ NextPc i s t := by
  obtain ⟨-, rfl⟩ | ⟨-, rfl⟩ := jumpOrLoop_next.1 h
  · exact ⟨(Changes.refl s).withPcResult s.pc _, .same rfl⟩
  · exact ⟨hu.withPcResult _ _, .jump hj⟩

/-- `Rts` stays on the empty stack and pops otherwise. -/
theorem exec_rts_next (h : exec .rts s = .next t) :
    (s.stack = [] ∧ t = { s with result := .error .returnFromEmptyStack }) ∨
    ∃ target rest, s.stack = target :: rest ∧ t = { s with pc := target, stack := rest, result := .cont } := by
  simp only [exec, execRts] at h
  split at h
  next hp => exact .inl ⟨pop?_eq_none.1 hp, takeError_next.1 h⟩
  next target u hp =>
    obtain ⟨rest, hs, rfl⟩ := pop?_eq_some.1 hp
    exact .inr ⟨target, rest, hs, transfer_next.1 h⟩

/-- `Bcd` advances after its checked write. -/
theorem exec_bcd_next {x : Nibble} (h : exec (.bcd x) s = .next t) :
    ∃ u, s.memWrite? (s.dataAddr 0) (bcdDigits (s.reg x)) = some u ∧ advance u = .next t := by
  simp only [exec, execBcd] at h
  split at h
  next => cases h
  next u hw => exact ⟨u, hw, h⟩

/-- `Stor` advances after its checked write and the increment of `I`. -/
theorem exec_stor_next {x : Nibble} (h : exec (.stor x) s = .next t) :
    ∃ u, s.memWrite? (s.dataAddr 0) (s.regList (rangeLength x)) = some u ∧
      advance (u.bumpI Config.memxIIncrement (rangeLength x)) = .next t := by
  simp only [exec, execStor, storWith] at h
  split at h
  next => cases h
  next u hw => exact ⟨u, hw, h⟩

/-- Everything an instruction that answers a next state can change. -/
theorem exec_cases (h : exec i s = .next t) : Changes s t (destinations i) (writtenParts i) ∧ NextPc i s t := by
  cases i with
  | sys nnn =>
    simp only [exec, execSys] at h
    split at h
    · exact stay_cases h
    · exact stay_cases h
  | clr => exact (changes_fb s _).advance_cases h rfl
  | rts =>
    obtain ⟨-, rfl⟩ | ⟨target, rest, hs, rfl⟩ := exec_rts_next h
    · exact ⟨(Changes.refl s).withPcResult s.pc _, .same rfl⟩
    · exact ⟨(changes_stack s rest).withPcResult _ _, .ret hs⟩
  | jump nnn => exact (Changes.refl s).jumpOrLoop_cases rfl h
  | jumpI nnn => exact (Changes.refl s).jumpOrLoop_cases rfl h
  | call nnn => exact (changes_stack s _).jumpOrLoop_cases rfl h
  | ske x kk | skne x kk | skre x y | skrne x y => exact skipIf_cases h
  | load x kk | add x kk | move x y | or x y | and x y | xor x y | sub x y | moved x =>
    exact (changes_setReg s x _).advance_cases h rfl
  | addr d y | shr x d | shl x d => exact (changes_setResultAndFlag s _ d _ _).advance_cases h rfl
  | loadI nnn | addi x => exact (changes_setI s _).advance_cases h rfl
  | rand x kk => exact ((changes_draw8 s).trans (changes_setReg _ x _)).advance_cases h rfl
  | draw x y n =>
    simp only [exec, execDraw] at h
    split at h
    next => cases h
    next => exact ((changes_fb s _).trans (changes_setReg _ flagReg _)).advance_cases h rfl
  | skpr x | skup x =>
    simp only [exec, execSkpr, execSkup] at h
    split at h
    next => cases h
    next => exact skipIf_cases h
  | keyd x =>
    simp only [exec, execKeyd] at h
    split at h
    next => exact stay_cases h
    next => exact (changes_setReg s x _).advance_cases h rfl
  | loadd x => exact (changes_setDt s _).advance_cases h rfl
  | loads x => exact (Changes.refl s).advance_cases h rfl
  | ldspr x =>
    simp only [exec, execLdspr] at h
    split at h
    · exact stay_cases h
    · exact (changes_setI s _).advance_cases h rfl
  | bcd x =>
    obtain ⟨u, hw, h⟩ := exec_bcd_next h
    obtain ⟨-, rfl⟩ := memWrite?_eq_some.1 hw
    exact (changes_mem s _).advance_cases h rfl
  | stor x =>
    obtain ⟨u, hw, h⟩ := exec_stor_next h
    obtain ⟨-, rfl⟩ := memWrite?_eq_some.1 hw
    exact (changes_mem s _).bumpI.advance_cases h rfl
  | read x =>
    simp only [exec, execRead, readWith] at h
    split at h
    next => cases h
    next bs hr =>
      obtain ⟨-, rfl⟩ := memRead?_eq_some.1 hr
      exact (changes_fillRegs s x (length_readBytes s _ _)).bumpI.advance_cases h (fillRegs_pc s 0 _)

theorem exec_changes (h : exec i s = .next t) : Changes s t (destinations i) (writtenParts i) := (exec_cases h).1

theorem exec_nextPc (h : exec i s = .next t) : NextPc i s t := (exec_cases h).2

/-- A register outside the destinations is unchanged. -/
theorem exec_reg (h : exec i s = .next t) {r : Nibble} (hr : r ∉ destinations i) : t.reg r = s.reg r :=
  (exec_changes h).frame.1 r hr

/-- A piece the instruction does not write is unchanged. -/
theorem exec_same (h : exec i s = .next t) {p : Part} (hp : p ∉ writtenParts i) : p.Same s t :=
  (exec_changes h).frame.2 p hp

/-! Which instructions write which piece. -/

theorem fb_mem_writtenParts : Part.fb ∈ writtenParts i → i = .clr ∨ ∃ x y n, i = .draw x y n := by
  cases i <;> simp [writtenParts]

theorem mem_mem_writtenParts : Part.mem ∈ writtenParts i → (∃ x, i = .bcd x) ∨ ∃ x, i = .stor x := by
  cases i <;> simp [writtenParts]

theorem stack_mem_writtenParts : Part.stack ∈ writtenParts i → i = .rts ∨ ∃ nnn, i = .call nnn := by
  cases i <;> simp [writtenParts]

theorem dt_mem_writtenParts : Part.dt ∈ writtenParts i → ∃ x, i = .loadd x := by
  cases i <;> simp [writtenParts]

theorem i_mem_writtenParts : Part.i ∈ writtenParts i →
    (∃ nnn, i = .loadI nnn) ∨ (∃ x, i = .addi x) ∨ (∃ x, i = .ldspr x) ∨ (∃ x, i = .stor x) ∨ ∃ x, i = .read x := by
  cases i <;> simp [writtenParts]

theorem randDraws_mem_writtenParts : Part.randDraws ∈ writtenParts i → ∃ x kk, i = .rand x kk := by
  cases i <;> simp [writtenParts]

/-- The pieces that no instruction writes: the Host's, the rate controller's, the tick's time and the model's clock. -/
def unwrittenParts : List Part := [.key, .paused, .lastTick, .boundary, .rom, .clock, .clockReads]

theorem not_mem_writtenParts {p : Part} (hp : p ∈ unwrittenParts) : p ∉ writtenParts i := by
  revert p
  cases i <;> simp [unwrittenParts, writtenParts]

theorem exec_same_of_unwritten (h : exec i s = .next t) {p : Part} (hp : p ∈ unwrittenParts) : p.Same s t :=
  exec_same h (not_mem_writtenParts hp)

end Sys2Proof.Machine
end

section
/-! The invariants of the machine, and which instructions write which piece of state (10_state.md). -/

namespace Sys2Proof.Machine

variable {i : Instr} {s t : State}

/-! The machine invariant. -/

/-- Checked writes keep the canonical form of memory. -/
theorem wf_of_memWrite? {a : Nat} {bs : List Byte} (hw : s.memWrite? a bs = some t) (hm : Memory.wf s.mem = true) :
    Memory.wf t.mem = true := by
  obtain ⟨hle, rfl⟩ := memWrite?_eq_some.1 hw
  exact Memory.wf_writeBytes hm hle

theorem exec_keeps_wf (hm : Memory.wf s.mem = true) (h : exec i s = .next t) : Memory.wf t.mem = true := by
  by_cases hi : Part.mem ∈ writtenParts i
  · obtain ⟨x, rfl⟩ | ⟨x, rfl⟩ := mem_mem_writtenParts hi
    · obtain ⟨u, hw, h⟩ := exec_bcd_next h
      obtain rfl := advance_next.1 h
      exact (wf_of_memWrite? hw hm :)
    · obtain ⟨u, hw, h⟩ := exec_stor_next h
      obtain rfl := advance_next.1 h
      exact (wf_of_memWrite? hw hm :)
  · rw [(exec_changes h).mem hi]
    exact hm

theorem exec_keeps_inv (hs : s.Inv) (h : exec i s = .next t) : t.Inv := by
  obtain ⟨hm, hrom, htick, hbound⟩ := hs
  have kept {p : Part} (hp : p ∈ unwrittenParts) : p.Same s t := exec_same_of_unwritten h hp
  have rom : t.rom = s.rom := kept (p := .rom) (by decide)
  have lastTick : t.lastTick = s.lastTick := kept (p := .lastTick) (by decide)
  have boundary : t.boundary = s.boundary := kept (p := .boundary) (by decide)
  have clock : t.clock = s.clock := kept (p := .clock) (by decide)
  refine ⟨exec_keeps_wf hm h, ?_, ?_, ?_⟩
  · rwa [rom]
  · rwa [lastTick, clock]
  · rwa [boundary, clock]

/-- The tick at the next observed time keeps the invariant, since the clock does not run backwards. -/
theorem tick_keeps_inv (hs : s.Inv) : (s.tick s.nextNow).Inv := by
  obtain ⟨hm, hrom, htick, hbound⟩ := hs
  have hclock := clock_le_nextNow s
  refine ⟨hm, hrom, ?_, hbound.trans hclock⟩
  rw [tick_lastTick, tick_clock]
  split
  · exact le_rfl
  · exact htick.trans hclock

/-- A step that answers a next state: paused, an instruction after the tick, or a word that does not decode. -/
theorem step_next_cases (h : step s = .next t) :
    t = { s with result := .cont } ∨
    (s.pc.toNat + 2 ≤ Config.memSize ∧ ∃ i, exec i (s.tick s.nextNow) = .next t) ∨
    t = { s.tick s.nextNow with result := .error (.decodeError s.wordAtPc) } := by
  obtain ⟨-, he⟩ | ⟨-, -, he⟩ | ⟨hc, i, -, he⟩ | ⟨-, -, he⟩ := step_cases s <;> rw [he] at h
  · cases h; exact .inl rfl
  · cases h
  · exact .inr (.inl ⟨hc.2, i, h⟩)
  · cases h; exact .inr (.inr rfl)

theorem step_keeps_inv (hs : s.Inv) (h : step s = .next t) : t.Inv := by
  obtain rfl | ⟨-, i, he⟩ | rfl := step_next_cases h
  · exact hs
  · exact exec_keeps_inv (tick_keeps_inv hs) he
  · exact tick_keeps_inv hs

/-- Settles O19: the tick keeps the invariant, and so does every instruction. -/
theorem stepKeepsInv : Obligations.StepKeepsInv := fun _ _ => step_keeps_inv

/-! The bounds of the addresses. -/

/-- A jump goes to a 12-bit address plus at most a byte (10_state.md R25). -/
theorem jumpTarget?_le {target : Word} (h : jumpTarget? i s = some target) : target.toNat ≤ 0x10FE := by
  have haddr (nnn : Addr12) : (addr16 nnn).toNat ≤ 0xFFF := by
    have := nnn.isLt
    simp only [addr16, BitVec.toNat_setWidth]; omega
  have hbyte (b : Byte) : (byte16 b).toNat ≤ 0xFF := by
    have := b.isLt
    simp only [byte16, BitVec.toNat_setWidth]; omega
  cases i with
  | jump nnn | call nnn =>
    obtain rfl := Option.some.inj h
    exact (haddr nnn).trans (by decide)
  | jumpI nnn =>
    obtain rfl := Option.some.inj h
    rw [BitVec.toNat_add]
    exact (Nat.mod_le _ _).trans (Nat.add_le_add (haddr nnn) (hbyte _))
  | _ => cases h

/-- A return address on the stack after an instruction was there before, or is that of the instruction's call. -/
theorem mem_stack_of_exec (h : exec i s = .next t) {a : Word} (ha : a ∈ t.stack) : a ∈ s.stack ∨ a = s.pc + 2#16 := by
  by_cases hi : Part.stack ∈ writtenParts i
  · obtain rfl | ⟨nnn, rfl⟩ := stack_mem_writtenParts hi
    · obtain ⟨-, rfl⟩ | ⟨target, rest, hs, rfl⟩ := exec_rts_next h
      · exact .inl ha
      · exact .inl (hs ▸ List.mem_cons_of_mem target ha)
    · obtain ⟨-, rfl⟩ | ⟨-, rfl⟩ := jumpOrLoop_next.1 h
      · exact .inl ha
      · exact (List.mem_cons.1 ha).symm
  · have hstack : t.stack = s.stack := exec_same h hi
    exact .inl (hstack ▸ ha)

/-- `pc` advances from an address with room for a word without wrapping. -/
theorem toNat_pc_add (hpc : s.pc.toNat + 2 ≤ 4096) {d : Nat} (hd : d ≤ 4) :
    (s.pc + BitVec.ofNat 16 d).toNat = s.pc.toNat + d := by
  rw [BitVec.toNat_add, BitVec.toNat_ofNat]
  omega

theorem exec_keeps_addressesBounded (hpc : s.pc.toNat + 2 ≤ 4096) (hs : s.AddressesBounded)
    (h : exec i s = .next t) : t.AddressesBounded := by
  obtain ⟨hspc, hstack⟩ := hs
  have h2 : (s.pc + 2#16).toNat ≤ 0x1000 := (toNat_pc_add hpc (by decide)).trans_le hpc
  refine ⟨?_, fun a ha => ?_⟩
  · cases exec_nextPc h with
    | same e => rwa [e]
    | next e => rw [e]; exact h2.trans (by decide)
    | skip e => rw [e, toNat_pc_add hpc (by decide)]; omega
    | jump hj => exact jumpTarget?_le hj
    | ret e => exact (hstack t.pc (by simp [e])).trans (by decide)
  · obtain ha | rfl := mem_stack_of_exec h ha
    · exact hstack a ha
    · exact h2

theorem step_keeps_addressesBounded (hs : s.AddressesBounded) (h : step s = .next t) : t.AddressesBounded := by
  obtain rfl | ⟨hpc, i, he⟩ | rfl := step_next_cases h
  · exact hs
  · exact exec_keeps_addressesBounded (s := s.tick s.nextNow) hpc hs he
  · exact hs

/-- Settles O20: an instruction runs only where its word lies inside memory, so its own sums on `pc` stay below the
bounds, and a jump goes to at most 0xFFF + 0xFF. -/
theorem stepKeepsAddressBounds : Obligations.StepKeepsAddressBounds := fun _ _ => step_keeps_addressesBounded

/-! What no step writes. -/

/-- The pieces the Host and the rate controller write, and the kept ROM. -/
def hostParts : List Part := [.key, .paused, .rom, .boundary]

theorem unwritten_of_host : ∀ p ∈ hostParts, p ∈ unwrittenParts := by decide

theorem not_mem_tickParts_of_host : ∀ p ∈ hostParts, p ∉ tickParts := by decide

/-- No step writes a piece of the Host: neither the tick nor an instruction does. -/
theorem step_same_of_host (h : step s = .next t) {p : Part} (hp : p ∈ hostParts) : p.Same s t := by
  have htick : p.Same s (s.tick s.nextNow) := (changes_tick s s.nextNow).frame.2 p (not_mem_tickParts_of_host p hp)
  obtain rfl | ⟨-, i, he⟩ | rfl := step_next_cases h
  · exact (Changes.refl s (regs := [])).frame.2 p List.not_mem_nil
  · exact htick.trans (exec_same_of_unwritten he (unwritten_of_host p hp))
  · exact htick

/-- Settles O23, piece by piece. -/
theorem stepLeavesHostState : Obligations.StepLeavesHostState := by
  intro s t h
  have kept {p : Part} (hp : p ∈ hostParts) : p.Same s t := step_same_of_host h hp
  exact ⟨kept (p := .key) (by decide), kept (p := .paused) (by decide), kept (p := .rom) (by decide),
    kept (p := .boundary) (by decide)⟩

/-! The writers of each piece and of the data registers. -/

/-- Settles O24: a piece changes only where `writtenParts` lists it, and the lists say which instructions those are. -/
theorem writersOfEachPiece : Obligations.WritersOfEachPiece := by
  intro i s t h
  have kept {p : Part} (hp : p ∈ unwrittenParts) : p.Same s t := exec_same_of_unwritten h hp
  refine ⟨fun hdraw hclr => ?fb, fun hbcd hstor => ?mem, fun hcall hrts => ?stack, fun hloadd => ?dt,
    fun hloadI haddi hldspr hstor hread => ?i, fun hrand => ?rand, kept (p := .key) (by decide),
    kept (p := .paused) (by decide), kept (p := .lastTick) (by decide), kept (p := .boundary) (by decide),
    kept (p := .rom) (by decide), kept (p := .clock) (by decide), kept (p := .clockReads) (by decide)⟩
  case fb => exact exec_same (p := .fb) h fun hm => by simpa [hdraw, hclr] using fb_mem_writtenParts hm
  case mem => exact exec_same (p := .mem) h fun hm => by simpa [hbcd, hstor] using mem_mem_writtenParts hm
  case stack => exact exec_same (p := .stack) h fun hm => by simpa [hcall, hrts] using stack_mem_writtenParts hm
  case dt => exact exec_same (p := .dt) h fun hm => by simpa [hloadd] using dt_mem_writtenParts hm
  case i =>
    exact exec_same (p := .i) h fun hm => by simpa [hloadI, haddi, hldspr, hstor, hread] using i_mem_writtenParts hm
  case rand => exact exec_same (p := .randDraws) h fun hm => by simpa [hrand] using randDraws_mem_writtenParts hm

/-- Register 15 is a destination of `Read(15)` alone. -/
theorem flagReg_mem_destinations_read {x : Nibble} : 0xF#4 ∈ destinations (.read x) ↔ x = 0xF#4 := by
  rw [mem_destinations_read, BitVec.toNat_eq]
  have := x.isLt
  change 15 ≤ x.toNat ↔ x.toNat = 15
  omega

/-- Settles O25: the frame of every instruction, and the instructions whose destinations hold register 15. -/
theorem writersOfRegisters : Obligations.WritersOfRegisters := by
  refine ⟨fun i s t h r => exec_reg h, fun i => ?_⟩
  cases i with
  | read x => simp [flagReg_mem_destinations_read]
  | _ => simp [destinations, eq_comm]

/-! Reset and creation. -/

theorem create_eq_ok {rom : List Byte} {now : Nat} :
    create rom now = .ok s ↔ rom.length ≤ maxRomLength ∧
      s = { State.reset with mem := Memory.image rom, rom := rom, lastTick := now, boundary := now, clock := now } := by
  unfold create
  split <;> simp_all [eq_comm]

theorem reset_addressesBounded : State.reset.AddressesBounded := ⟨by decide, fun _ ha => nomatch ha⟩

/-- Settles O22: a ROM that fits gives canonical memory, and every recorded time is the time of creation. -/
theorem resetMeetsInvariants : Obligations.ResetMeetsInvariants := by
  refine ⟨by decide, reset_addressesBounded, fun rom now s h => ?_⟩
  obtain ⟨hrom, rfl⟩ := create_eq_ok.1 h
  exact ⟨⟨Memory.wf_image hrom, hrom, le_rfl, le_rfl⟩, reset_addressesBounded⟩

@[simp] theorem reg_reset (x : Nibble) : State.reset.reg x = 0x00#8 := by simp [State.reg, State.reset]

theorem key_reset (k : Fin Config.nKeys) : State.reset.key[k] = false := by simp [State.reset]

/-- Settles O56: the values of `State.reset`, register by register, pixel by pixel and key by key. -/
theorem resetValues : Obligations.ResetValues :=
  ⟨reg_reset, rfl, rfl, rfl, rfl, pixel_blankScreen, key_reset, rfl⟩

end Sys2Proof.Machine
end

section
/-! Memory as the fetch, the data accesses and whole sessions see it (20_memory.md). -/

namespace Sys2Proof.Machine

variable {s t : State} {e : Event} {es : List Event}

/-! Sessions (20_memory.md R60). -/

theorem runEvents_cons_next :
    runEvents (e :: es) s = .next t ↔ ∃ u, runEvent e s = .next u ∧ runEvents es u = .next t := by
  cases he : runEvent e s <;> simp [runEvents, he]

/-- What every event keeps, every session keeps. -/
theorem runEvents_keeps {P : State → Prop} (keep : ∀ {e s t}, P s → runEvent e s = .next t → P t) (hs : P s)
    (h : runEvents es s = .next t) : P t := by
  induction es generalizing s with
  | nil => cases h; exact hs
  | cons e es ih =>
    obtain ⟨u, he, hes⟩ := runEvents_cons_next.1 h
    exact ih (keep hs he) hes

/-- Pacing moves `boundary` and the clock to one time, not before the latest observed, and leaves every other piece of
the spec (60_exceptions.md R234). -/
theorem runEvent_pace_next {rate : Nat} (h : runEvent (.pace rate) s = .next t) :
    ∃ c, s.clock ≤ c ∧ t = { s with boundary := c, clock := c, clockReads := s.clockReads + 2 } := by
  by_cases hrate : rate = 0
  · simp [runEvent, pace, paceAt, hrate] at h
  · simp only [runEvent, pace, paceAt, hrate, if_false, Host.Outcome.next.injEq] at h
    exact ⟨_, (clock_le_nextNow s).trans ((Nat.le_add_right _ _).trans (Nat.le_add_right _ _)), h.symm⟩

/-- A reset by the Host reloads the kept ROM, which fits (70_reset_and_hazards.md R251). -/
theorem hostAct_keeps_inv (a : HostAction) (hs : s.Inv) : (hostAct a s).Inv := by
  cases a with
  | writeKeys keys => exact hs
  | togglePaused => exact hs
  | readFramebuffer => exact hs
  | reset =>
    obtain ⟨-, hrom, htimes⟩ := hs
    exact ⟨Memory.wf_image hrom, hrom, htimes⟩

theorem hostAct_keeps_addressesBounded (a : HostAction) (hs : s.AddressesBounded) :
    (hostAct a s).AddressesBounded := by
  cases a with
  | writeKeys keys => exact hs
  | togglePaused => exact hs
  | readFramebuffer => exact hs
  | reset => exact reset_addressesBounded

theorem runEvent_keeps_inv (hs : s.Inv) (h : runEvent e s = .next t) : t.Inv := by
  cases e with
  | step => exact step_keeps_inv hs h
  | host a => cases h; exact hostAct_keeps_inv a hs
  | pace rate =>
    obtain ⟨hm, hrom, htick, -⟩ := hs
    obtain ⟨c, hc, rfl⟩ := runEvent_pace_next h
    exact ⟨hm, hrom, htick.trans hc, le_rfl⟩

theorem runEvent_keeps_addressesBounded (hs : s.AddressesBounded) (h : runEvent e s = .next t) :
    t.AddressesBounded := by
  cases e with
  | step => exact step_keeps_addressesBounded hs h
  | host a => cases h; exact hostAct_keeps_addressesBounded a hs
  | pace rate =>
    obtain ⟨c, -, rfl⟩ := runEvent_pace_next h
    exact hs

/-- Settles O21, by induction on the events: every kind of event keeps each invariant. -/
theorem sessionKeepsInvariants : Obligations.SessionKeepsInvariants := fun _ _ _ hinv haddr h =>
  ⟨runEvents_keeps runEvent_keeps_inv hinv h, runEvents_keeps runEvent_keeps_addressesBounded haddr h⟩

/-! A word stored at `pc` (20_memory.md R51, R62). -/

theorem tableWord_toNat (w : Word) : tableWord 16 w.toNat = w := by
  rw [tableWord, Nat.mod_eq_of_lt w.isLt, BitVec.ofNat_toNat, BitVec.setWidth_eq]

@[simp] theorem length_bytesOfWord (w : Word) : (bytesOfWord w).length = 2 := rfl

/-- With room at `pc`, the aid of log 19 writes the two bytes of the word there and clears `paused`. -/
theorem withFetchWord_eq (hpc : s.pc.toNat + 2 ≤ Config.memSize) (w : Word) :
    s.withFetchWord 16 w.toNat =
      { s with paused := false, mem := Memory.writeBytes s.mem s.pc.toNat (bytesOfWord w) } := by
  have hw : { s with paused := false }.memWrite? s.pc.toNat (bytesOfWord w) = some _ := memWrite?_eq_some.2 ⟨hpc, rfl⟩
  rw [State.withFetchWord, tableWord_toNat, State.placeAtPc, hw, Option.getD_some]

/-- The byte that a placed word puts at `pc + k`. -/
theorem readByte_withFetchWord (hm : Memory.wf s.mem = true) (hpc : s.pc.toNat + 2 ≤ Config.memSize) (w : Word)
    {k : Nat} (hk : k < (bytesOfWord w).length) :
    (s.withFetchWord 16 w.toNat).readByte (s.pc.toNat + k) = (bytesOfWord w)[k] := by
  rw [withFetchWord_eq hpc, State.readByte, Memory.read_writeBytes hm hpc, if_pos (Nat.le_add_right _ _),
    Nat.add_sub_cancel_left, List.getD_eq_getElem _ _ hk]

/-- Settles O11: the next step finds room at `pc` and there the word that was placed. -/
theorem fetchReadsWhatWasStored : Obligations.FetchReadsWhatWasStored := by
  intro s w i hm hpc hd u
  have hu : u = { s with paused := false, mem := _ } := withFetchWord_eq hpc w
  have hupc : u.pc = s.pc := by rw [hu]
  have hi : u.readByte s.pc.toNat = w.extractLsb' 8 8 := readByte_withFetchWord hm hpc w (k := 0) (by simp)
  have lo : u.readByte (s.pc.toNat + 1) = w.extractLsb' 0 8 := readByte_withFetchWord hm hpc w (k := 1) (by simp)
  have hc : u.CanFetch := ⟨by rw [hu], by rwa [hupc]⟩
  have hword : u.wordAtPc = w := by
    rw [State.wordAtPc, hupc, hi, lo]
    exact wordOfBytes_bytesOfWord w
  exact ⟨hi, lo, step_of_decode_ok hc (by rwa [hword])⟩

/-! Accesses outside memory (20_memory.md R56). -/

/-- `Draw` finds no sprite bytes exactly where it has rows and some row lies outside memory (46_draw.md R180). -/
theorem sprite?_eq_none {n : Nibble} : s.sprite? n = none ↔ n ≠ 0 ∧ Config.memSize < s.dataAddr 0 + n.toNat := by
  unfold State.sprite?
  split
  next hn => simp [hn]
  next hn => simp [hn, memRead?_eq_none]

/-- Settles O55: the range check fails, and the fault carries the state the instruction began in. -/
theorem accessOutsideFaults : Obligations.AccessOutsideFaults := by
  intro x y n s
  refine ⟨fun hn h => ?draw, fun h => ?bcd, fun h => ⟨?stor, ?read⟩⟩
  case draw => simp only [exec, execDraw, sprite?_eq_none.2 ⟨hn, h⟩, faultMemory]
  case bcd =>
    have hw : s.memWrite? (s.dataAddr 0) (bcdDigits (s.reg x)) = none := memWrite?_eq_none.2 h
    simp only [exec, execBcd, hw, faultMemory]
  case stor =>
    have hw : s.memWrite? (s.dataAddr 0) (s.regList (rangeLength x)) = none :=
      memWrite?_eq_none.2 (by rwa [length_regList])
    simp only [exec, execStor, storWith, hw, faultMemory]
  case read =>
    have hr : s.memRead? (s.dataAddr 0) (rangeLength x) = none := memRead?_eq_none.2 h
    simp only [exec, execRead, readWith, hr, faultMemory]

/-- Settles O10: the tick leaves `pc`, so the fetch after it is the one that faults. -/
theorem fetchOutsideFaults : Obligations.FetchOutsideFaults := fun _ => step_of_fetch_outside

end Sys2Proof.Machine
end

section
/-! The codec's two laws and the words it rejects (30_encoding.md R78 to R86). -/

namespace Sys2Proof

variable {w : Word} {i : Instr} {op n : Nibble} {kk : Byte}

/-! A word is the layout of its fields, with the group and the suffix given by name. -/

theorem wordA_of_fieldOp (hop : fieldOp w = op) : wordA op (fieldNNN w) = w := hop ▸ wordA_fields w

theorem wordXK_of_fieldOp (hop : fieldOp w = op) : wordXK op (fieldX w) (fieldKK w) = w := hop ▸ wordXK_fields w

theorem wordXYN_of_fieldOp (hop : fieldOp w = op) : wordXYN op (fieldX w) (fieldY w) (fieldN w) = w :=
  hop ▸ wordXYN_fields w

theorem wordXK_of_suffix (hop : fieldOp w = op) (hkk : (fieldKK w).toNat = kk.toNat) : wordXK op (fieldX w) kk = w :=
  BitVec.eq_of_toNat_eq hkk ▸ wordXK_of_fieldOp hop

theorem wordXYN_of_suffix (hop : fieldOp w = op) (hn : (fieldN w).toNat = n.toNat) :
    wordXYN op (fieldX w) (fieldY w) n = w :=
  BitVec.eq_of_toNat_eq hn ▸ wordXYN_of_fieldOp hop

/-! The number of a field (30_encoding.md R71). -/

theorem toNat_fieldOp (w : Word) : (fieldOp w).toNat = w.toNat / 4096 := by
  have := w.isLt
  simp only [fieldOp, BitVec.extractLsb'_toNat, Nat.shiftRight_eq_div_pow]
  omega

theorem toNat_fieldN (w : Word) : (fieldN w).toNat = w.toNat % 16 := by simp [fieldN]

theorem toNat_fieldKK (w : Word) : (fieldKK w).toNat = w.toNat % 256 := by simp [fieldKK]

/-! What a decoded word gives back (30_encoding.md R85), for each group with suffixes or excepted words. -/

/-- The instruction is one the decoder may answer for the word: well formed, and encoded as that word. -/
def IsDecodingOf (i : Instr) (w : Word) : Prop := encode i = w ∧ i.wellFormed = true

theorem decodeGroup0_isDecodingOf (hop : fieldOp w = 0x0#4) : IsDecodingOf (decodeGroup0 w) w := by
  have hw : wordA 0x0#4 (fieldNNN w) = w := wordA_of_fieldOp hop
  unfold decodeGroup0
  split_ifs with hclr hrts
  · exact ⟨hclr.symm, rfl⟩
  · exact ⟨hrts.symm, rfl⟩
  · have hne0 : fieldNNN w ≠ 0x0E0#12 := fun h => hclr (by rw [← hw, h]; rfl)
    have hneE : fieldNNN w ≠ 0x0EE#12 := fun h => hrts (by rw [← hw, h]; rfl)
    exact ⟨hw, by simp [Instr.wellFormed, hne0, hneE]⟩

theorem decodeGroup8_isDecodingOf (hop : fieldOp w = 0x8#4) (h : decodeGroup8 w = .ok i) : IsDecodingOf i w := by
  unfold decodeGroup8 at h
  split at h <;> cases h
  all_goals exact ⟨wordXYN_of_suffix hop ‹_›, rfl⟩

theorem decodeGroupE_isDecodingOf (hop : fieldOp w = 0xE#4) (h : decodeGroupE w = .ok i) : IsDecodingOf i w := by
  unfold decodeGroupE at h
  split at h <;> cases h
  all_goals exact ⟨wordXK_of_suffix hop ‹_›, rfl⟩

theorem decodeGroupF_isDecodingOf (hop : fieldOp w = 0xF#4) (h : decodeGroupF w = .ok i) : IsDecodingOf i w := by
  unfold decodeGroupF at h
  split at h <;> cases h
  all_goals exact ⟨wordXK_of_suffix hop ‹_›, rfl⟩

/-- What the decoder answers is well formed and encodes to the word it was read from. -/
theorem isDecodingOf_of_decode (h : decode w = .ok i) : IsDecodingOf i w := by
  obtain hop | hop | hop | hop | hop | hop | hop | hop | hop | hop | hop | hop | hop | hop | hop | hop :=
    nibble_cases (fieldOp w)
  · rw [decode_of_group_0 hop] at h; cases h; exact decodeGroup0_isDecodingOf hop
  · rw [decode_of_group_1 hop] at h; cases h; exact ⟨wordA_of_fieldOp hop, rfl⟩
  · rw [decode_of_group_2 hop] at h; cases h; exact ⟨wordA_of_fieldOp hop, rfl⟩
  · rw [decode_of_group_3 hop] at h; cases h; exact ⟨wordXK_of_fieldOp hop, rfl⟩
  · rw [decode_of_group_4 hop] at h; cases h; exact ⟨wordXK_of_fieldOp hop, rfl⟩
  · rw [decode_of_group_5 hop] at h
    split at h <;> cases h
    next hn => exact ⟨wordXYN_of_suffix hop (congrArg _ hn), rfl⟩
  · rw [decode_of_group_6 hop] at h; cases h; exact ⟨wordXK_of_fieldOp hop, rfl⟩
  · rw [decode_of_group_7 hop] at h; cases h; exact ⟨wordXK_of_fieldOp hop, rfl⟩
  · rw [decode_of_group_8 hop] at h; exact decodeGroup8_isDecodingOf hop h
  · rw [decode_of_group_9 hop] at h
    split at h <;> cases h
    next hn => exact ⟨wordXYN_of_suffix hop (congrArg _ hn), rfl⟩
  · rw [decode_of_group_A hop] at h; cases h; exact ⟨wordA_of_fieldOp hop, rfl⟩
  · rw [decode_of_group_B hop] at h; cases h; exact ⟨wordA_of_fieldOp hop, rfl⟩
  · rw [decode_of_group_C hop] at h; cases h; exact ⟨wordXK_of_fieldOp hop, rfl⟩
  · rw [decode_of_group_D hop] at h; cases h; exact ⟨wordXYN_of_fieldOp hop, rfl⟩
  · rw [decode_of_group_E hop] at h; exact decodeGroupE_isDecodingOf hop h
  · rw [decode_of_group_F hop] at h; exact decodeGroupF_isDecodingOf hop h

/-! What an encoded instruction decodes to (30_encoding.md R86). -/

/-- The two ill-formed values are those that share a word with `Clr` or `Rts`. -/
theorem wellFormed_iff (i : Instr) : i.wellFormed = true ↔ i ≠ .sys 0x0E0#12 ∧ i ≠ .sys 0x0EE#12 := by
  cases i with
  | sys nnn => simp [Instr.wellFormed]
  | _ => exact ⟨fun _ => ⟨nofun, nofun⟩, fun _ => rfl⟩

theorem wordA_inj {a b : Addr12} : wordA op a = wordA op b ↔ a = b :=
  ⟨fun h => by simpa using congrArg fieldNNN h, congrArg (wordA op)⟩

theorem decodeGroup0_wordA {nnn : Addr12} (h : (Instr.sys nnn).wellFormed = true) :
    decodeGroup0 (wordA 0x0#4 nnn) = .sys nnn := by
  obtain ⟨hne0, hneE⟩ : nnn ≠ 0x0E0#12 ∧ nnn ≠ 0x0EE#12 := by simpa [Instr.wellFormed] using h
  have hclr : wordA 0x0#4 nnn ≠ 0x00E0#16 := mt (wordA_inj (b := 0x0E0#12)).1 hne0
  have hrts : wordA 0x0#4 nnn ≠ 0x00EE#16 := mt (wordA_inj (b := 0x0EE#12)).1 hneE
  rw [decodeGroup0, if_neg hclr, if_neg hrts, fieldNNN_wordA]

theorem decode_encode (h : i.wellFormed = true) : decode (encode i) = .ok i := by
  cases i with
  | clr | rts => rfl
  | sys nnn => exact (decode_of_group_0 (Laws.WordGroup.sys nnn)).trans (congrArg _ (decodeGroup0_wordA h))
  | jump nnn | call nnn | loadI nnn | jumpI nnn => simp [encode, decode]
  | ske x kk | skne x kk | load x kk | add x kk | rand x kk => simp [encode, decode]
  | skre x y | skrne x y | draw x y n => simp [encode, decode]
  | move x y | or x y | and x y | xor x y | addr x y | sub x y | shr x y | shl x y =>
    simp [encode, decode, decodeGroup8]
  | skpr x | skup x => simp [encode, decode, decodeGroupE]
  | moved x | keyd x | loadd x | loads x | addi x | ldspr x | bcd x | stor x | read x =>
    simp [encode, decode, decodeGroupF]

/-- The decoder is the inverse of the encoder on the well-formed instructions. -/
theorem decode_eq_ok : decode w = .ok i ↔ IsDecodingOf i w :=
  ⟨isDecodingOf_of_decode, fun ⟨hw, hi⟩ => hw ▸ decode_encode hi⟩

/-- Settles O1, with the inverse law for the well-formed values; the words of the other two are numerals. -/
theorem decodeOfEncode : Obligations.DecodeOfEncode :=
  ⟨wellFormed_iff, fun _ => decode_encode, ⟨rfl, rfl⟩, ⟨rfl, rfl⟩, fun _ _ h => (decode_eq_ok.1 h).2⟩

/-- Settles O2: the word is the encoding of what it decodes to, so the instruction determines it. -/
theorem encodeOfDecode : Obligations.EncodeOfDecode :=
  have encode_eq (w i) (h : decode w = .ok i) : encode i = w := (decode_eq_ok.1 h).1
  ⟨encode_eq, fun w w' i h h' => (encode_eq w i h).symm.trans (encode_eq w' i h')⟩

/-! The words that do not decode (30_encoding.md R78 to R81). -/

theorem decodeGroup8_error_iff :
    (∃ e, decodeGroup8 w = .error e) ↔ w.toNat % 16 ∉ [0x0, 0x1, 0x2, 0x3, 0x4, 0x5, 0x6, 0xE] := by
  rw [← toNat_fieldN]
  unfold decodeGroup8
  split <;> simp_all

theorem decodeGroupE_error_iff : (∃ e, decodeGroupE w = .error e) ↔ w.toNat % 256 ∉ [0x9E, 0xA1] := by
  rw [← toNat_fieldKK]
  unfold decodeGroupE
  split <;> simp_all

theorem decodeGroupF_error_iff :
    (∃ e, decodeGroupF w = .error e) ↔
      w.toNat % 256 ∉ [0x07, 0x0A, 0x15, 0x18, 0x1E, 0x29, 0x33, 0x55, 0x65] := by
  rw [← toNat_fieldKK]
  unfold decodeGroupF
  split <;> simp_all

/-- Groups 5 and 9: the suffix must be 0 (30_encoding.md R78). -/
theorem decode_error_iff_of_zero_suffix
    (h : decode w = if fieldN w = 0x0#4 then .ok i else .error (.unrecognizedSuffix w)) :
    (∃ e, decode w = .error e) ↔ w.toNat % 16 ≠ 0 := by
  have hn : fieldN w = 0x0#4 ↔ w.toNat % 16 = 0 := by rw [← toNat_fieldN]; exact BitVec.toNat_eq
  rw [h, Ne, ← hn]
  split <;> simp_all

/-- Settles O3, group by group: eleven groups decode every word, and each of the other five rejects by its suffix. -/
theorem decodeErrorWords : Obligations.DecodeErrorWords := by
  refine ⟨fun _ _ => decode_error_eq, fun w => ?_⟩
  rw [← toNat_fieldOp]
  obtain hop | hop | hop | hop | hop | hop | hop | hop | hop | hop | hop | hop | hop | hop | hop | hop :=
    nibble_cases (fieldOp w)
  · simp [decode_of_group_0 hop, hop]
  · simp [decode_of_group_1 hop, hop]
  · simp [decode_of_group_2 hop, hop]
  · simp [decode_of_group_3 hop, hop]
  · simp [decode_of_group_4 hop, hop]
  · simp [decode_error_iff_of_zero_suffix (decode_of_group_5 hop), hop]
  · simp [decode_of_group_6 hop, hop]
  · simp [decode_of_group_7 hop, hop]
  · simp [decode_of_group_8 hop, hop, decodeGroup8_error_iff]
  · simp [decode_error_iff_of_zero_suffix (decode_of_group_9 hop), hop]
  · simp [decode_of_group_A hop, hop]
  · simp [decode_of_group_B hop, hop]
  · simp [decode_of_group_C hop, hop]
  · simp [decode_of_group_D hop, hop]
  · simp [decode_of_group_E hop, hop, decodeGroupE_error_iff]
  · simp [decode_of_group_F hop, hop, decodeGroupF_error_iff]

/-- Settles O4: the words are numerals, and the codec computes. -/
theorem workedEncodings : Obligations.WorkedEncodings := by
  unfold Obligations.WorkedEncodings
  decide

end Sys2Proof
end

section
/-! The step cycle: the delay tick, one step, the time of a run, outcomes, taken skips and how a run ends
(40_step_cycle.md). -/

namespace Sys2Proof.Machine

variable {i : Instr} {s t u : State} {e : Event} {es : List Event} {stops : List EndCondition} {c : EndCondition}

/-! The delay tick (40_step_cycle.md R102). -/

theorem tick_of_due {now : Nat} (h : 16000000 ≤ now - s.lastTick) :
    (s.tick now).dt.toNat = s.dt.toNat - 1 ∧ (s.tick now).lastTick = now := by
  simp [(tickDue_iff s now).2 h, toNat_decrementFloor]

theorem tick_of_not_due {now : Nat} (h : now - s.lastTick < 16000000) :
    (s.tick now).dt = s.dt ∧ (s.tick now).lastTick = s.lastTick := by
  have hdue : s.tickDue now = false := by simpa using mt (tickDue_iff s now).1 (Nat.not_le.2 h)
  simp [hdue]

/-- Settles O6, on both sides of the interval; the frame is the tick's. -/
theorem tickRule : Obligations.TickRule := fun s now =>
  ⟨tick_of_due, tick_of_not_due, rfl, rfl, rfl, (changes_tick s now).frame⟩

/-! One step (40_step_cycle.md R100 to R104). -/

/-- Settles O5: the tick leaves `pc` and memory, so the fetch after it finds the word at `pc`. -/
theorem stepRunsDecoded : Obligations.StepRunsDecoded := fun _ _ hc hd => step_of_decode_ok hc hd

/-- Settles O8: a paused step writes the result alone, and `paused` is a piece of the Host. -/
theorem pausedStepDoesNothing : Obligations.PausedStepDoesNothing := by
  refine ⟨fun s hp => ⟨_, step_of_paused hp, rfl, rfl, rfl, ?frame⟩, fun s t h => ?paused⟩
  case frame => exact ((Changes.refl s).withPcResult s.pc _).frame
  case paused => exact step_same_of_host (p := .paused) h (by decide)

/-- Settles O9: the error step leaves the ticked state with the error as its result. -/
theorem decodeErrorStep : Obligations.DecodeErrorStep := fun s _ hc hd =>
  ⟨_, step_of_decode_error hc hd, rfl, rfl, rfl, rfl, ((changes_tick s s.nextNow).withPcResult s.pc _).frame⟩

/-- Settles O49: each instruction runs on the ticked state, whose `DT` the one reads and the other overwrites. -/
theorem tickPrecedesInstruction : Obligations.TickPrecedesInstruction := by
  refine fun s x hc => ⟨fun hd => ⟨_, step_of_decode_ok hc hd, ?moved⟩, fun hd => ⟨_, step_of_decode_ok hc hd, rfl⟩⟩
  case moved =>
    refine (congrArg BitVec.toNat (reg_setReg_same _ x (s.tick s.nextNow).dt)).trans ?_
    split
    next hdue => exact (tick_of_due hdue).1
    next hdue => rw [(tick_of_not_due (Nat.not_le.1 hdue)).1]

/-- Settles O17: no instruction writes `lastTick`, and only `Loadd` writes `DT`, so both are as the tick left them. -/
theorem delayCounterFallsByTheTick : Obligations.DelayCounterFallsByTheTick := by
  intro s t h hp hloadd
  have ticked : t.dt = (s.tick s.nextNow).dt ∧ t.lastTick = (s.tick s.nextNow).lastTick := by
    obtain ⟨hp', -⟩ | ⟨-, -, he⟩ | ⟨-, i, hd, he⟩ | ⟨-, -, he⟩ := step_cases s
    · rw [hp] at hp'; cases hp'
    · rw [he] at h; cases h
    · rw [he] at h
      have hdt : Part.dt ∉ writtenParts i := fun hm => by
        obtain ⟨x, rfl⟩ := dt_mem_writtenParts hm
        exact hloadd x hd
      exact ⟨exec_same h hdt, exec_same_of_unwritten (p := .lastTick) h (by decide)⟩
    · rw [he] at h; cases h; exact ⟨rfl, rfl⟩
  rw [ticked.1, ticked.2]
  exact ⟨tick_of_due, tick_of_not_due⟩

/-! Faults: the state an instruction's fault carries is the one it began in (20_memory.md R56, 47_keys.md R194). -/

theorem jumpOrLoop_ne_fault {target : Word} {taken : State} {f : Fault} : jumpOrLoop target taken s ≠ .fault f := by
  unfold jumpOrLoop
  split <;> exact nofun

theorem exec_fault_after {f : Fault} (h : exec i s = .fault f) : f.after = s := by
  cases i with
  | jump nnn | call nnn | jumpI nnn => exact absurd h jumpOrLoop_ne_fault
  | sys nnn | rts | keyd x | ldspr x =>
    simp only [exec, execSys, execRts, execKeyd, execLdspr] at h
    split at h <;> cases h
  | draw x y n | skpr x | skup x | bcd x | stor x | read x =>
    simp only [exec, execDraw, execSkpr, execSkup, execBcd, execStor, storWith, execRead, readWith] at h
    split at h <;> cases h
    rfl
  | _ => cases h

/-- Every fault of a step carries the ticked state (60_exceptions.md R226). -/
theorem step_fault_after {f : Fault} (h : step s = .fault f) : f.after = s.tick s.nextNow := by
  obtain ⟨-, he⟩ | ⟨-, -, he⟩ | ⟨-, i, -, he⟩ | ⟨-, -, he⟩ := step_cases s <;> rw [he] at h
  · cases h
  · cases h; rfl
  · exact exec_fault_after h
  · cases h

/-! Time (40_step_cycle.md R100; log 1). -/

/-- How the recorded times can move from `s` to `t`: not at all, or the clock was observed at or after the next time of
`s`, and then the last tick moved only if the interval had passed. -/
inductive TimePasses (s t : State) : Prop
  | still (clock : t.clock = s.clock) (reads : t.clockReads = s.clockReads) (lastTick : t.lastTick = s.lastTick)
  | observed (clock : s.nextNow ≤ t.clock) (lastTick : t.lastTick = s.lastTick ∨ 16000000 ≤ t.clock - s.lastTick)

/-- The next time never moves back. -/
theorem TimePasses.nextNow_le (h : TimePasses s t) : s.nextNow ≤ t.nextNow := by
  cases h with
  | still hclock hreads _ => rw [State.nextNow, State.nextNow, hclock, hreads]
  | observed hclock _ => exact hclock.trans (clock_le_nextNow t)

theorem TimePasses.clock_le (h : TimePasses s t) : s.clock ≤ t.clock := by
  cases h with
  | still hclock _ _ => exact hclock.ge
  | observed hclock _ => exact (clock_le_nextNow s).trans hclock

theorem TimePasses.lastTick_eq (h : TimePasses s t) (hlt : t.clock - s.lastTick < 16000000) :
    t.lastTick = s.lastTick := by
  cases h with
  | still _ _ hlast => exact hlast
  | observed _ hlast => exact hlast.resolve_right (Nat.not_le.2 hlt)

/-- How the times passed is read off the final state's time fields alone. -/
theorem TimePasses.of_same_times (h : TimePasses s u) (clock : t.clock = u.clock)
    (reads : t.clockReads = u.clockReads) (lastTick : t.lastTick = u.lastTick) : TimePasses s t := by
  cases h with
  | still hclock hreads hlast => exact .still (clock.trans hclock) (reads.trans hreads) (lastTick.trans hlast)
  | observed hclock hlast => exact .observed (by rwa [clock]) (by rwa [clock, lastTick])

theorem timePasses_tick (s : State) : TimePasses s (s.tick s.nextNow) := by
  refine .observed le_rfl ?_
  by_cases hdue : 16000000 ≤ s.nextNow - s.lastTick
  · exact .inr hdue
  · exact .inl (tick_of_not_due (Nat.not_le.1 hdue)).2

/-- A step that is not paused observes the time in its tick, and no instruction writes a recorded time. -/
theorem timePasses_of_step (h : step s = .next t) : TimePasses s t := by
  obtain rfl | ⟨-, i, he⟩ | rfl := step_next_cases h
  · exact .still rfl rfl rfl
  · exact (timePasses_tick s).of_same_times (exec_same_of_unwritten (p := .clock) he (by decide))
      (exec_same_of_unwritten (p := .clockReads) he (by decide))
      (exec_same_of_unwritten (p := .lastTick) he (by decide))
  · exact (timePasses_tick s).of_same_times rfl rfl rfl

/-- Pacing calls the clock at the next time, and the sleep ends no earlier (60_exceptions.md R234). -/
theorem timePasses_of_pace {rate : Nat} (h : runEvent (.pace rate) s = .next t) : TimePasses s t := by
  by_cases hrate : rate = 0
  · simp [runEvent, pace, paceAt, hrate] at h
  · simp only [runEvent, pace, paceAt, hrate, if_false, Host.Outcome.next.injEq] at h
    subst h
    exact .observed ((Nat.le_add_right _ _).trans (Nat.le_add_right _ _)) (.inl rfl)

theorem timePasses_hostAct (a : HostAction) (s : State) : TimePasses s (hostAct a s) := by
  cases a <;> exact .still rfl rfl rfl

theorem timePasses_of_runEvent (h : runEvent e s = .next t) : TimePasses s t := by
  cases e with
  | step => exact timePasses_of_step h
  | host a => cases h; exact timePasses_hostAct a s
  | pace rate => exact timePasses_of_pace h

theorem runEvent_fault_after {f : Fault} (h : runEvent e s = .fault f) : f.after = s.tick s.nextNow := by
  cases e with
  | step => exact step_fault_after h
  | host a => cases h
  | pace rate =>
    simp only [runEvent] at h
    split at h <;> cases h

/-- Time passes in every event of a run, the steps that fault included. -/
theorem Leaves.timePasses (h : Leaves e s t) : TimePasses s t := by
  obtain hnext | ⟨f, hfault, rfl⟩ := h
  · exact timePasses_of_runEvent hnext
  · rw [runEvent_fault_after hfault]
    exact timePasses_tick s

/-- What every event keeps of the state it leaves, every run that goes on keeps. -/
theorem runUntil_keeps {P : State → Prop} (keep : ∀ {e s t}, P s → Leaves e s t → P t) (hs : P s)
    (h : runUntil stops es s = .ongoing t) : P t := by
  induction es generalizing s with
  | nil => cases h; exact hs
  | cons e es ih =>
    obtain ⟨c, -, -, -, he⟩ | ⟨-, ⟨u, hu, he⟩ | ⟨r, -, he⟩⟩ := runUntil_cons_cases (stops := stops) e s <;>
      rw [he] at h
    · cases h
    · exact ih (keep hs hu) h
    · cases h

theorem nextNow_le_of_runUntil (h : runUntil stops es s = .ongoing t) : s.nextNow ≤ t.nextNow :=
  runUntil_keeps (P := fun u => s.nextNow ≤ u.nextNow) (fun hle hu => hle.trans hu.timePasses.nextNow_le) le_rfl h

/-- Settles O7: the next time never moves back in an event, so it does not over the events from the earlier step to the
later one. -/
theorem timeIsMonotone : Obligations.TimeIsMonotone := by
  refine ⟨clock_le_nextNow, fun s t h => (timePasses_of_step h).clock_le, ?_⟩
  intro stops es s before mid rest u v _ hu hv
  rw [runUntil_append_of_ongoing hu] at hv
  exact nextNow_le_of_runUntil hv

/-- Settles O18: the clock of each state of the session is at most the last one's, so the interval has not passed at any
of its events. -/
theorem noTickWithinInterval : Obligations.NoTickWithinInterval := by
  intro es s t _ h
  refine runEvents_keeps (P := fun u => u.clock - s.lastTick < 16000000 → u.lastTick = s.lastTick)
    (fun {e u w} hu he hw => ?_) (fun _ => rfl) h
  have passed : TimePasses u w := timePasses_of_runEvent he
  have hlast : u.lastTick = s.lastTick := hu ((Nat.sub_le_sub_right passed.clock_le _).trans_lt hw)
  rw [← hlast] at hw ⊢
  exact passed.lastTick_eq hw

/-! Outcomes (40_step_cycle.md R105). -/

/-- The result of each instruction where it answers a next state. -/
def resultOf (i : Instr) (s : State) : StepResult :=
  match i with
  | .sys nnn => if nnn = 0x000#12 then .halted else .error (.unimplementedSysCall nnn)
  | .clr => .continueRedraw
  | .rts => if s.stack = [] then .error .returnFromEmptyStack else .cont
  | .jump _ => if jumpTarget? i s = some s.pc then .selfLoop else .cont
  | .call _ => if jumpTarget? i s = some s.pc then .selfLoop else .cont
  | .ske _ _ => .cont
  | .skne _ _ => .cont
  | .skre _ _ => .cont
  | .load _ _ => .cont
  | .add _ _ => .cont
  | .move _ _ => .cont
  | .or _ _ => .cont
  | .and _ _ => .cont
  | .xor _ _ => .cont
  | .addr _ _ => .cont
  | .sub _ _ => .cont
  | .shr _ _ => .cont
  | .shl _ _ => .cont
  | .skrne _ _ => .cont
  | .loadI _ => .cont
  | .jumpI _ => if jumpTarget? i s = some s.pc then .selfLoop else .cont
  | .rand _ _ => .cont
  | .draw _ _ _ => .continueRedraw
  | .skpr _ => .cont
  | .skup _ => .cont
  | .moved _ => .cont
  | .keyd _ => .cont
  | .loadd _ => .cont
  | .loads _ => .cont
  | .addi _ => .cont
  | .ldspr x => if maxGlyph < s.reg x then .error (.spriteIndexOutOfRange (s.reg x)) else .cont
  | .bcd _ => .cont
  | .stor _ => .cont
  | .read _ => .cont

theorem result_of_advanceWith {r : StepResult} (h : advanceWith r u = .next t) : t.result = r := by
  rw [advanceWith_next.1 h]

theorem result_of_stay {r : StepResult} (h : stay r s = .next t) : t.result = r := by
  rw [stay_next.1 h]

theorem result_of_skipIf {b : Bool} (h : skipIf b s = .next t) : t.result = .cont := by
  rw [skipIf_next.1 h]

theorem result_of_jumpOrLoop {target : Word} {taken : State} (h : jumpOrLoop target taken s = .next t) :
    t.result = if some target = some s.pc then .selfLoop else .cont := by
  obtain ⟨htarget, rfl⟩ | ⟨htarget, rfl⟩ := jumpOrLoop_next.1 h <;> simp [htarget]

theorem exec_result (h : exec i s = .next t) : t.result = resultOf i s := by
  cases i with
  | sys nnn =>
    simp only [exec, execSys] at h
    simp only [resultOf]
    split at h
    next hz => rw [if_pos hz]; exact result_of_stay h
    next hz => rw [if_neg hz]; exact result_of_stay h
  | rts =>
    obtain ⟨hs, rfl⟩ | ⟨target, rest, hs, rfl⟩ := exec_rts_next h <;> simp [resultOf, hs]
  | jump nnn | call nnn | jumpI nnn => exact result_of_jumpOrLoop h
  | ske x kk | skne x kk | skre x y | skrne x y => exact result_of_skipIf h
  | draw x y n =>
    simp only [exec, execDraw] at h
    split at h
    next => cases h
    next => exact result_of_advanceWith h
  | skpr x | skup x =>
    simp only [exec, execSkpr, execSkup] at h
    split at h
    next => cases h
    next => exact result_of_skipIf h
  | keyd x =>
    simp only [exec, execKeyd] at h
    split at h
    next => exact result_of_stay h
    next => exact result_of_advanceWith h
  | ldspr x =>
    simp only [exec, execLdspr] at h
    simp only [resultOf]
    split at h
    next hg => rw [if_pos hg]; exact result_of_stay h
    next hg => rw [if_neg hg]; exact result_of_advanceWith h
  | bcd x =>
    obtain ⟨u, -, h⟩ := exec_bcd_next h
    exact result_of_advanceWith h
  | stor x =>
    obtain ⟨u, -, h⟩ := exec_stor_next h
    exact result_of_advanceWith h
  | read x =>
    simp only [exec, execRead, readWith] at h
    split at h
    next => cases h
    next => exact result_of_advanceWith h
  | _ => exact result_of_advanceWith h

theorem maxGlyph_lt {g : Byte} : maxGlyph < g ↔ 15 < g.toNat := BitVec.lt_def

/-- Settles O26, read off the result of each instruction. -/
theorem outcomeOfEachInstruction : Obligations.OutcomeOfEachInstruction := by
  intro i s t h
  rw [exec_result h]
  cases i with
  | sys nnn => by_cases hz : nnn = 0x000#12 <;> simp [resultOf, jumpTarget?, hz]
  | rts => by_cases hs : s.stack = [] <;> simp [resultOf, jumpTarget?, hs]
  | jump nnn | call nnn | jumpI nnn => 
    simp only [resultOf]
    split_ifs with hj <;> simp [hj]
  | ldspr x => by_cases hg : maxGlyph < s.reg x <;> simp [resultOf, jumpTarget?, hg, maxGlyph_lt.1]
  | _ => simp [resultOf, jumpTarget?]

/-! Taken skips (40_step_cycle.md R106). -/

/-- The instruction is one of the six skips and its condition holds. -/
def TakesSkip (i : Instr) (s : State) : Prop :=
  (∃ x kk, i = .ske x kk ∧ s.reg x = kk) ∨ (∃ x kk, i = .skne x kk ∧ s.reg x ≠ kk) ∨
  (∃ x y, i = .skre x y ∧ s.reg x = s.reg y) ∨ (∃ x y, i = .skrne x y ∧ s.reg x ≠ s.reg y) ∨
  (∃ x, ∃ h : (s.reg x).toNat < Config.nKeys, i = .skpr x ∧ s.key[(s.reg x).toNat] = true) ∨
  (∃ x, ∃ h : (s.reg x).toNat < Config.nKeys, i = .skup x ∧ s.key[(s.reg x).toNat] = false)

theorem exec_of_takesSkip (h : TakesSkip i s) : exec i s = .next { s with pc := s.pc + 4#16, result := .cont } := by
  obtain ⟨x, kk, rfl, hx⟩ | ⟨x, kk, rfl, hx⟩ | ⟨x, y, rfl, hx⟩ | ⟨x, y, rfl, hx⟩ | ⟨x, hlt, rfl, hx⟩ |
    ⟨x, hlt, rfl, hx⟩ := h
  · simp [exec, execSke, skipIf, hx]
  · simp [exec, execSkne, skipIf, hx]
  · simp [exec, execSkre, skipIf, hx]
  · simp [exec, execSkrne, skipIf, hx]
  · simp [exec, execSkpr, skipIf, keyAt?_eq_some.2 ⟨hlt, hx⟩]
  · simp [exec, execSkup, skipIf, keyAt?_eq_some.2 ⟨hlt, hx⟩]

/-- A step that takes a skip goes to `pc + 4`, whatever word it skips; its tick changes nothing that the skip reads. -/
theorem step_of_takesSkip (hc : s.CanFetch) (hd : decode s.wordAtPc = .ok i) (h : TakesSkip i s) :
    step s = .next { s.tick s.nextNow with pc := s.pc + 4#16, result := .cont } :=
  (step_of_decode_ok hc hd).trans (exec_of_takesSkip (s := s.tick s.nextNow) h)

/-- Settles O35: memory enters the step through the skip's own word alone. -/
theorem skippedWordIsNotFetched : Obligations.SkippedWordIsNotFetched := by
  intro s u i hc hu hword hd hskip
  obtain ⟨m, rfl⟩ : ∃ m, u = { s with mem := m } := ⟨u.mem, hu⟩
  have hs := step_of_takesSkip hc hd hskip
  have hu := step_of_takesSkip (s := { s with mem := m }) hc (hword ▸ hd) hskip
  exact ⟨_, _, hs, hu, rfl, rfl, rfl, rfl⟩

/-! How a run ends (40_step_cycle.md R109). -/

theorem metBy_halted {last : Ending} :
    EndCondition.halted.metBy last = true ↔ ∃ t, last = .next t ∧ t.result = .halted := by
  cases last with
  | next t => cases hr : t.result <;> simp [EndCondition.metBy, StepResult.endCondition?, hr]
  | fault f => simp [EndCondition.metBy]
  | refused r => simp [EndCondition.metBy]

theorem metBy_selfLoop {last : Ending} :
    EndCondition.selfLoop.metBy last = true ↔ ∃ t, last = .next t ∧ t.result = .selfLoop := by
  cases last with
  | next t => cases hr : t.result <;> simp [EndCondition.metBy, StepResult.endCondition?, hr]
  | fault f => simp [EndCondition.metBy]
  | refused r => simp [EndCondition.metBy]

theorem metBy_error {last : Ending} :
    EndCondition.error.metBy last = true ↔
      (∃ t e, last = .next t ∧ t.result = .error e) ∨ ∃ f, last = .fault f := by
  cases last with
  | next t => cases hr : t.result <;> simp [EndCondition.metBy, StepResult.endCondition?, hr]
  | fault f => simp [EndCondition.metBy]
  | refused r => simp [EndCondition.metBy]

/-- A run that ends does so at a step that meets one of the conditions, after a run that goes on up to it; and that step
ends the run whatever events follow. -/
theorem runUntil_ended {last : Ending} {rest : List Event} (h : runUntil stops es s = .ended c last rest) :
    ∃ before u, es = before ++ .step :: rest ∧ runUntil stops before s = .ongoing u ∧ last = step u ∧
      c ∈ stops ∧ c.metBy last = true ∧ ∀ fs, runUntil stops (.step :: fs) u = .ended c last fs := by
  induction es generalizing s with
  | nil => cases h
  | cons e es ih =>
    obtain ⟨c', hc, rfl, hmet, he⟩ | ⟨-, ⟨w, -, he⟩ | ⟨r, -, he⟩⟩ := runUntil_cons_cases (stops := stops) e s
    · rw [he] at h
      cases h
      exact ⟨[], s, rfl, rfl, rfl, hc, hmet, he⟩
    · rw [he] at h
      obtain ⟨before, u, rfl, hbefore, hu⟩ := ih h
      exact ⟨e :: before, u, rfl, (he before).trans hbefore, hu⟩
    · rw [he] at h
      cases h

/-- No step of a run that goes on met a condition the driver stops on. -/
theorem not_metBy_of_ongoing (h : runUntil stops es s = .ongoing t) (hu : TakesStepAt stops es s u) (hc : c ∈ stops) :
    ¬ c.metBy (step u) = true := by
  obtain ⟨before, rest, rfl, hbefore⟩ := hu
  rw [runUntil_append_of_ongoing hbefore] at h
  obtain ⟨c', -, -, -, he⟩ | ⟨hnot, -⟩ := runUntil_cons_cases (stops := stops) .step u
  · rw [he] at h
    cases h
  · simp [hnot rfl c hc]

/-- Settles O60: a run ends at a step that meets a condition, whatever follows it, and no step before it met one. -/
theorem runEndsAtFirstEndCondition : Obligations.RunEndsAtFirstEndCondition := by
  refine ⟨?ends, ?nextGoesOn, ?faultGoesOn⟩
  case ends =>
    intro stops es s c last rest h
    obtain ⟨before, u, rfl, hbefore, hlast, hc, hmet, hends⟩ := runUntil_ended h
    refine ⟨hc, ?met, ⟨before, u, rfl, hbefore, hlast⟩, fun more => ?rest⟩
    case met =>
      cases c with
      | halted => exact metBy_halted.1 hmet
      | selfLoop => exact metBy_selfLoop.1 hmet
      | error => exact metBy_error.1 hmet
    case rest =>
      rw [List.append_assoc, runUntil_append_of_ongoing hbefore]
      exact hends (rest ++ more)
  case nextGoesOn =>
    intro stops es s t u v h hu hv
    exact ⟨fun hc hr => not_metBy_of_ongoing h hu hc (metBy_halted.2 ⟨v, hv, hr⟩),
      fun hc hr => not_metBy_of_ongoing h hu hc (metBy_selfLoop.2 ⟨v, hv, hr⟩),
      fun hc e hr => not_metBy_of_ongoing h hu hc (metBy_error.2 (.inl ⟨v, e, hv, hr⟩))⟩
  case faultGoesOn =>
    intro stops es s t u f h hu hf hc
    exact not_metBy_of_ongoing h hu hc (metBy_error.2 (.inr ⟨f, hf⟩))

end Sys2Proof.Machine
end

section
/-! Group 0x0: `Sys`, `Clr` and `Rts`, and the machine that has halted (41_system_display.md). -/

namespace Sys2Proof.Machine

variable {s t : State}

/-! What each instruction of the group answers. -/

theorem exec_sys_zero (s : State) : exec (.sys 0) s = .next { s with result := .halted } := rfl

theorem exec_sys_of_ne_zero {nnn : Addr12} (h : nnn ≠ 0) (s : State) :
    exec (.sys nnn) s = .next { s with result := .error (.unimplementedSysCall nnn) } := if_neg h

theorem exec_clr (s : State) :
    exec .clr s = .next { s with fb := blankScreen, pc := s.pc + 2#16, result := .continueRedraw } := rfl

theorem exec_rts_of_cons {target : Word} {rest : List Word} (h : s.stack = target :: rest) :
    exec .rts s = .next { s with pc := target, stack := rest, result := .cont } := by
  have hpop : s.pop? = some (target, { s with stack := rest }) := pop?_eq_some.2 ⟨rest, h, rfl⟩
  simp only [exec, execRts, hpop, transfer]

theorem exec_rts_of_nil (h : s.stack = []) :
    exec .rts s = .next { s with result := .error .returnFromEmptyStack } := by
  simp only [exec, execRts, pop?_eq_none.2 h, takeError, stay]

/-- A new result alone changes no frame. -/
theorem frame_withResult (s : State) (r : StepResult) : Frame s { s with result := r } [] [] :=
  ((Changes.refl s).withPcResult s.pc r).frame

/-- A `Sys` that is not the word of `Clr` or `Rts` is the word of its operand (30_encoding.md R86). -/
theorem encodedAs_sys {nnn : Addr12} (hclr : nnn ≠ 0x0E0#12) (hrts : nnn ≠ 0x0EE#12) :
    EncodedAs (.sys nnn) nnn.toNat :=
  ⟨by simp [encode, toNat_wordA],
    decode_encode ((wellFormed_iff _).2 ⟨mt Instr.sys.inj hclr, mt Instr.sys.inj hrts⟩)⟩

/-- Settles O27: either way the instruction stays at its address and writes the result alone. -/
theorem sysHaltsOrErrors : Obligations.SysHaltsOrErrors :=
  ⟨fun _ => encodedAs_sys, fun s =>
    ⟨⟨_, exec_sys_zero s, rfl, rfl, rfl, frame_withResult s _⟩,
      fun _ h => ⟨_, exec_sys_of_ne_zero h s, rfl, rfl, rfl, frame_withResult s _⟩⟩⟩

/-- Settles O28: the framebuffer becomes the blank screen. -/
theorem clrClearsScreen : Obligations.ClrClearsScreen :=
  ⟨⟨rfl, rfl⟩, fun s =>
    ⟨_, exec_clr s, pixel_blankScreen, rfl, rfl, ((changes_fb s blankScreen).withPcResult _ _).frame⟩⟩

/-- Settles O29, with one answer for each form of the stack. -/
theorem rtsPopsOrErrors : Obligations.RtsPopsOrErrors := by
  refine ⟨⟨rfl, rfl⟩, fun s target rest h => ?nonempty, fun s h => ?empty⟩
  case nonempty =>
    exact ⟨_, exec_rts_of_cons h, rfl, rfl, rfl, ((changes_stack s rest).withPcResult target _).frame⟩
  case empty => exact ⟨_, exec_rts_of_nil h, rfl, rfl, frame_withResult s _⟩

/-! A halted machine (40_step_cycle.md R108). -/

/-- A frame that lists more pieces says less. -/
theorem Changes.mono_parts {regs : List Nibble} {parts parts' : List Part} (h : Changes s t regs parts)
    (hsub : parts ⊆ parts') : Changes s t regs parts' where
  frame := ⟨h.frame.1, fun p hp => h.frame.2 p (mt (hsub ·) hp)⟩
  mem hm := h.mem (mt (hsub ·) hm)

theorem step_of_wordAtPc_zero (hc : s.CanFetch) (hw : s.wordAtPc = 0x0000#16) :
    step s = .next { s.tick s.nextNow with result := .halted } := by
  have hd : decode s.wordAtPc = .ok (.sys 0) := hw ▸ rfl
  exact (step_of_decode_ok hc hd).trans (exec_sys_zero _)

theorem changes_tick_withResult (s : State) (r : StepResult) :
    Changes s { s.tick s.nextNow with result := r } [] tickParts := (changes_tick s s.nextNow).withPcResult s.pc r

/-- The halted step leaves a state that fetches 0x0000 again, so the frames of all the steps compose. -/
theorem run_of_wordAtPc_zero (n : Nat) (hc : s.CanFetch) (hw : s.wordAtPc = 0x0000#16) :
    ∃ t, Host.Core.run Sys2Proof.core (n + 1) s = .next t ∧ t.result = .halted ∧ t.pc = s.pc ∧
      Changes s t [] tickParts := by
  induction n generalizing s with
  | zero => exact ⟨_, run_of_next core 0 s _ (step_of_wordAtPc_zero hc hw), rfl, rfl, changes_tick_withResult s _⟩
  | succ n ih =>
    obtain ⟨t, hrun, hresult, hpc, hrest⟩ := ih (s := { s.tick s.nextNow with result := .halted }) hc hw
    have hstep := run_of_next core (n + 1) s _ (step_of_wordAtPc_zero hc hw)
    have hall := (changes_tick_withResult s .halted).trans hrest
    exact ⟨t, hstep.trans hrun, hresult, hpc, hall.mono_parts (by simp)⟩

/-- Settles O16, for every number of steps; `tickParts` does not list memory, so its cells are the same. -/
theorem haltedStaysHalted : Obligations.HaltedStaysHalted := by
  intro s n hc hw
  obtain ⟨t, hrun, hresult, hpc, hchanges⟩ := run_of_wordAtPc_zero n hc hw
  exact ⟨t, hrun, hresult, hpc, hchanges.mem (by decide), hchanges.frame⟩

end Sys2Proof.Machine
end

section
/-! Jumps and calls: `Jump`, `Call` and `JumpI` with their self-loop test, and `Rts` after a `Call`
(42_jumps_calls.md). -/

namespace Sys2Proof.Machine

variable {i : Instr} {op : Nibble} {nnn : Addr12} {target : Word} {taken s t : State}

/-- An instruction of format `A` is encoded as its group and its address (30_encoding.md R72). -/
theorem encodedAs_of_wordA (hword : encode i = wordA op nnn) (hwf : i.wellFormed = true) :
    EncodedAs i (op.toNat * 4096 + nnn.toNat) :=
  ⟨hword ▸ toNat_wordA op nnn, decode_encode hwf⟩

/-! The number of a target, and the self-loop test on it. -/

@[simp] theorem toNat_addr16 (nnn : Addr12) : (addr16 nnn).toNat = nnn.toNat :=
  BitVec.toNat_setWidth_of_le (by decide)

@[simp] theorem toNat_byte16 (b : Byte) : (byte16 b).toNat = b.toNat := BitVec.toNat_setWidth_of_le (by decide)

/-- An address operand plus a byte stays below 65536 (42_jumps_calls.md R133). -/
@[simp] theorem toNat_addr16_add_byte16 (nnn : Addr12) (b : Byte) :
    (addr16 nnn + byte16 b).toNat = nnn.toNat + b.toNat := by
  have hsum : (addr16 nnn).toNat + (byte16 b).toNat < 2 ^ 16 := by simp only [toNat_addr16, toNat_byte16]; omega
  rw [BitVec.toNat_add_of_lt hsum, toNat_addr16, toNat_byte16]

theorem jumpOrLoop_of_eq (h : s.pc = target) :
    jumpOrLoop target taken s = .next { s with result := .selfLoop } := if_pos h.symm

theorem jumpOrLoop_of_ne (h : s.pc ≠ target) :
    jumpOrLoop target taken s = .next { taken with pc := target, result := .cont } := if_neg h.symm

/-- Either way `pc` ends at the target; without a write of its own the jump changes the result and nothing else. -/
theorem jumpOrLoop_self (target : Word) (s : State) :
    jumpOrLoop target s s =
      .next { s with pc := target, result := if s.pc.toNat = target.toNat then .selfLoop else .cont } := by
  by_cases h : s.pc = target
  · subst h
    rw [jumpOrLoop_of_eq rfl, if_pos rfl]
  · rw [jumpOrLoop_of_ne h, if_neg (mt BitVec.eq_of_toNat_eq h)]

/-! What `Call` answers (42_jumps_calls.md R132). -/

theorem exec_call_of_eq (h : s.pc = addr16 nnn) : exec (.call nnn) s = .next { s with result := .selfLoop } :=
  jumpOrLoop_of_eq h

theorem exec_call_of_ne (h : s.pc ≠ addr16 nnn) :
    exec (.call nnn) s =
      .next { s with pc := addr16 nnn, stack := (s.pc + 2#16) :: s.stack, result := .cont } :=
  jumpOrLoop_of_ne h

/-- A `Call` that is not a self-loop leaves its return address on top of the old stack. -/
theorem stack_of_call (h : exec (.call nnn) s = .next t) (hr : t.result = .cont) :
    t.stack = (s.pc + 2#16) :: s.stack := by
  obtain ⟨-, rfl⟩ | ⟨-, rfl⟩ := jumpOrLoop_next.1 h
  · cases hr
  · rfl

/-- Settles O33: `Rts` pops what the `Call` pushed. -/
theorem rtsUndoesCall : Obligations.RtsUndoesCall := by
  intro nnn s t u hcall hresult hstack
  exact ⟨_, exec_rts_of_cons (hstack.trans (stack_of_call hcall hresult)), rfl, rfl, rfl⟩

/-- Settles O30: the jump to `nnn`, with no write of its own. -/
theorem jumpGoesToTarget : Obligations.JumpGoesToTarget := by
  refine fun nnn s => ⟨encodedAs_of_wordA (op := 0x1#4) rfl rfl, _, jumpOrLoop_self (addr16 nnn) s, ?pc, ?result,
    ((Changes.refl s).withPcResult _ _).frame⟩
  case pc => exact toNat_addr16 nnn
  case result => simp only [toNat_addr16]

/-- Settles O32: the jump to the indexed target, whose number is the unwrapped sum. -/
theorem jumpIGoesToIndexedTarget : Obligations.JumpIGoesToIndexedTarget := by
  refine fun nnn s => ⟨encodedAs_of_wordA (op := 0xB#4) rfl rfl, _,
    jumpOrLoop_self (addr16 nnn + byte16 (s.reg 0)) s, ?pc, ?result, ((Changes.refl s).withPcResult _ _).frame⟩
  case pc => exact toNat_addr16_add_byte16 nnn _
  case result => simp only [toNat_addr16_add_byte16]

/-- Settles O31, with one answer on the self-call and one on every other target. -/
theorem callPushesReturnAddress : Obligations.CallPushesReturnAddress := by
  refine fun nnn s => ⟨encodedAs_of_wordA (op := 0x2#4) rfl rfl, ?_⟩
  have htest : s.pc.toNat = nnn.toNat ↔ s.pc = addr16 nnn := by rw [BitVec.toNat_eq, toNat_addr16]
  simp only [htest]
  by_cases h : s.pc = addr16 nnn
  · simp only [if_pos h]
    exact ⟨_, exec_call_of_eq h, htest.2 h, ⟨rfl, rfl⟩, ((Changes.refl s).withPcResult s.pc _).frame⟩
  · simp only [if_neg h]
    exact ⟨_, exec_call_of_ne h, toNat_addr16 nnn, ⟨rfl, _, rfl, BitVec.toNat_add _ _⟩,
      ((changes_stack s ((s.pc + 2#16) :: s.stack)).withPcResult (addr16 nnn) _).frame⟩

end Sys2Proof.Machine
end

section
/-! The compare-and-skip instructions `Ske`, `Skne`, `Skre` and `Skrne` (43_skips.md). -/

namespace Sys2Proof.Machine

variable {i : Instr} {op x y n : Nibble} {kk : Byte}

/-- An instruction of format `XK` is encoded as its group, its register and its byte (30_encoding.md R72). -/
theorem encodedAs_of_wordXK (hword : encode i = wordXK op x kk) (hwf : i.wellFormed = true) :
    EncodedAs i (op.toNat * 4096 + 256 * x.toNat + kk.toNat) :=
  ⟨by rw [hword, toNat_wordXK, Nat.mul_comm 256], decode_encode hwf⟩

/-- An instruction of format `XYN` is encoded as its group with its suffix, and its two registers
(30_encoding.md R72). -/
theorem encodedAs_of_wordXYN (hword : encode i = wordXYN op x y n) (hwf : i.wellFormed = true) :
    EncodedAs i (op.toNat * 4096 + n.toNat + 256 * x.toNat + 16 * y.toNat) :=
  ⟨by rw [hword, toNat_wordXYN]; omega, decode_encode hwf⟩

/-! What a skip answers, for a condition given as a test and for a comparison of two bytes. -/

theorem skipIf_answer (c : Bool) (s : State) :
    ∃ t, skipIf c s = .next t ∧ t.pc = (if c then s.pc + 4#16 else s.pc + 2#16) ∧ t.result = .cont ∧
      Frame s t [] [] :=
  ⟨_, skipIf_next.2 rfl, rfl, rfl, ((Changes.refl s).withPcResult _ _).frame⟩

theorem skipIf_beq_answer (a b : Byte) (s : State) :
    ∃ t, skipIf (a == b) s = .next t ∧ t.pc = (if a = b then s.pc + 4#16 else s.pc + 2#16) ∧ t.result = .cont ∧
      Frame s t [] [] := by
  simpa only [beq_iff_eq] using skipIf_answer (a == b) s

theorem skipIf_bne_answer (a b : Byte) (s : State) :
    ∃ t, skipIf (a != b) s = .next t ∧ t.pc = (if a = b then s.pc + 2#16 else s.pc + 4#16) ∧ t.result = .cont ∧
      Frame s t [] [] := by
  simpa only [bne_iff_ne, ite_not] using skipIf_answer (a != b) s

/-- Settles O34: each of the four is a skip on a comparison of two bytes, `Ske` and `Skre` on equal ones, `Skne` and
`Skrne` on different ones. -/
theorem compareAndSkip : Obligations.CompareAndSkip := by
  refine fun x y kk s => ⟨?encSke, ?encSkne, ?encSkre, ?encSkrne, ?ske, ?skne, ?skre, ?skrne⟩
  case encSke => exact encodedAs_of_wordXK (op := 0x3#4) rfl rfl
  case encSkne => exact encodedAs_of_wordXK (op := 0x4#4) rfl rfl
  case encSkre => exact encodedAs_of_wordXYN (op := 0x5#4) (n := 0x0#4) rfl rfl
  case encSkrne => exact encodedAs_of_wordXYN (op := 0x9#4) (n := 0x0#4) rfl rfl
  case ske => exact skipIf_beq_answer (s.reg x) kk s
  case skne => exact skipIf_bne_answer (s.reg x) kk s
  case skre => exact skipIf_beq_answer (s.reg x) (s.reg y) s
  case skrne => exact skipIf_bne_answer (s.reg x) (s.reg y) s

end Sys2Proof.Machine
end

section
/-! Register-to-register arithmetic and logic, group 0x8 (44_alu.md). -/

namespace Sys2Proof.Machine

variable {d : Nibble} {r : Byte} {f : Bool} {n m : Nat}

/-! What `V[15]` and the destination hold after a result and a flag were written (44_alu.md R159). -/

theorem reg_setResultAndFlag_dest (s : State) (o : FlagOrder) (hd : d ≠ flagReg) :
    (s.setResultAndFlag o d r f).reg d = r := by simp [reg_setResultAndFlag, hd]

theorem reg_setResultAndFlag_flagReg (s : State) (o : FlagOrder) (hd : d ≠ flagReg) :
    (s.setResultAndFlag o d r f).reg flagReg = flagByte f := by simp [reg_setResultAndFlag, hd.symm]

theorem reg_setResultAndFlag_flagReg_same (s : State) (o : FlagOrder) :
    (s.setResultAndFlag o flagReg r f).reg flagReg = if o = .flagLast then flagByte f else r := by
  cases o <;> simp [reg_setResultAndFlag]

/-! What an instruction answers that writes one register, or one register and the flag, and advances. -/

theorem advance_setReg_answer (s : State) (x : Nibble) (b : Byte) :
    ∃ t, advance (s.setReg x b) = .next t ∧ t.reg x = b ∧ t.pc = s.pc + 2#16 ∧ t.result = .cont ∧
      Frame s t [x] [] :=
  ⟨_, advance_next.2 rfl, reg_setReg_same s x b, rfl, rfl, ((changes_setReg s x b).withPcResult _ _).frame⟩

/-- The result is the number `n` and the flag the number `m`. -/
theorem advance_setResultAndFlag_answer (s : State) (o : FlagOrder) (hr : r.toNat = n) (hf : (flagByte f).toNat = m) :
    ∃ t, advance (s.setResultAndFlag o d r f) = .next t ∧
      (if d = flagReg then (t.reg flagReg).toNat = (if o = .flagLast then m else n)
       else (t.reg d).toNat = n ∧ (t.reg flagReg).toNat = m) ∧
      t.pc = s.pc + 2#16 ∧ t.result = .cont ∧ Frame s t [d, flagReg] [] := by
  subst hr hf
  refine ⟨_, advance_next.2 rfl, ?_, rfl, rfl, ((changes_setResultAndFlag s o d r f).withPcResult _ _).frame⟩
  split
  next hd =>
    subst hd
    exact (congrArg BitVec.toNat (reg_setResultAndFlag_flagReg_same s o)).trans (apply_ite _ _ _ _)
  next hd =>
    exact ⟨congrArg BitVec.toNat (reg_setResultAndFlag_dest s o hd),
      congrArg BitVec.toNat (reg_setResultAndFlag_flagReg s o hd)⟩

/-! The flags as numbers. -/

theorem toNat_flagByte (f : Bool) : (flagByte f).toNat = f.toNat := by cases f <;> rfl

theorem toNat_flagByte_carryOut (a b : Byte) :
    (flagByte (carryOut a b)).toNat = if 255 < a.toNat + b.toNat then 1 else 0 := by
  simp only [flagByte, carryOut, decide_eq_true_eq]
  exact apply_ite BitVec.toNat _ _ _

theorem toNat_flagByte_getLsbD (b : Byte) (k : Nat) : (flagByte (b.getLsbD k)).toNat = b.toNat / 2 ^ k % 2 :=
  (toNat_flagByte _).trans (Nat.toNat_testBit b.toNat k)

theorem toNat_flagByte_shiftedOutRight (b : Byte) : (flagByte (shiftedOutRight b)).toNat = b.toNat % 2 := by
  rw [shiftedOutRight, toNat_flagByte_getLsbD, pow_zero, Nat.div_one]

theorem toNat_flagByte_shiftedOutLeft (b : Byte) : (flagByte (shiftedOutLeft b)).toNat = b.toNat / 128 := by
  have hlt : b.toNat / 128 < 2 := Nat.div_lt_of_lt_mul b.isLt
  rw [shiftedOutLeft, toNat_flagByte_getLsbD]
  exact Nat.mod_eq_of_lt hlt

/-! The shifts as numbers. -/

theorem toNat_ushiftRight_one (b : Byte) : (b >>> 1).toNat = b.toNat / 2 := by
  rw [BitVec.toNat_ushiftRight, Nat.shiftRight_one]

theorem toNat_shiftLeft_one (b : Byte) : (b <<< 1).toNat = b.toNat * 2 % 256 := by
  rw [BitVec.toNat_shiftLeft, Nat.shiftLeft_eq, pow_one]

/-- Settles O37: `Addr` writes the sum to `V[x]` and its carry as the flag. -/
theorem addrAddsWithCarry : Obligations.AddrAddsWithCarry := fun x y s =>
  ⟨encodedAs_of_wordXYN (op := 0x8#4) (n := 0x4#4) rfl rfl,
    advance_setResultAndFlag_answer s _ (BitVec.toNat_add _ _) (toNat_flagByte_carryOut (s.reg x) (s.reg y))⟩

/-- Settles O39: the result comes from the old `V[x]` and the flag from the old `V[y]`, both written as `Addr` does. -/
theorem shiftsUseTwoRegisters : Obligations.ShiftsUseTwoRegisters := by
  refine fun x y s => ⟨?encShr, ?encShl, ?shr, ?shl⟩
  case encShr => exact encodedAs_of_wordXYN (op := 0x8#4) (n := 0x6#4) rfl rfl
  case encShl => exact encodedAs_of_wordXYN (op := 0x8#4) (n := 0xE#4) rfl rfl
  case shr =>
    exact advance_setResultAndFlag_answer s _ (toNat_ushiftRight_one _) (toNat_flagByte_shiftedOutRight (s.reg y))
  case shl =>
    exact advance_setResultAndFlag_answer s _ (toNat_shiftLeft_one _) (toNat_flagByte_shiftedOutLeft (s.reg y))

/-- Settles O36: each of the four writes `V[x]` alone, and the bits of the byte written are those of `BitVec`'s own
operation. -/
theorem moveAndLogic : Obligations.MoveAndLogic := by
  refine fun x y s => ⟨?encMove, ?encOr, ?encAnd, ?encXor, ?move, ?or, ?and, ?xor⟩
  case encMove => exact encodedAs_of_wordXYN (op := 0x8#4) (n := 0x0#4) rfl rfl
  case encOr => exact encodedAs_of_wordXYN (op := 0x8#4) (n := 0x1#4) rfl rfl
  case encAnd => exact encodedAs_of_wordXYN (op := 0x8#4) (n := 0x2#4) rfl rfl
  case encXor => exact encodedAs_of_wordXYN (op := 0x8#4) (n := 0x3#4) rfl rfl
  case move => exact advance_setReg_answer s x (s.reg y)
  case or =>
    obtain ⟨t, hexec, hreg, hrest⟩ := advance_setReg_answer s x (s.reg x ||| s.reg y)
    exact ⟨t, hexec, fun k _ => hreg ▸ BitVec.getLsbD_or, hrest⟩
  case and =>
    obtain ⟨t, hexec, hreg, hrest⟩ := advance_setReg_answer s x (s.reg x &&& s.reg y)
    exact ⟨t, hexec, fun k _ => hreg ▸ BitVec.getLsbD_and, hrest⟩
  case xor =>
    obtain ⟨t, hexec, hreg, hrest⟩ := advance_setReg_answer s x (s.reg x ^^^ s.reg y)
    exact ⟨t, hexec, fun k _ => hreg ▸ BitVec.getLsbD_xor, hrest⟩

/-- Settles O38: the one write of `Sub` is the wrapped difference. -/
theorem subWrapsWithoutFlag : Obligations.SubWrapsWithoutFlag := by
  refine fun x y s => ⟨encodedAs_of_wordXYN (op := 0x8#4) (n := 0x5#4) rfl rfl, ?_⟩
  obtain ⟨t, hexec, hreg, hrest⟩ := advance_setReg_answer s x (s.reg x - s.reg y)
  have hdiff : (t.reg x).toNat = (256 + (s.reg x).toNat - (s.reg y).toNat) % 256 := by
    rw [hreg, BitVec.toNat_sub]
    omega
  exact ⟨t, hexec, hdiff, hrest⟩

end Sys2Proof.Machine
end

section
/-! Immediates, the address register and the random byte (45_immediate_random.md; `Addi` from
48_timers_index_memory.md). -/

namespace Sys2Proof.Machine

variable {i : Instr} {op x : Nibble} {kk : Byte}

/-- An instruction of format `XK` with a fixed suffix byte is encoded as its group with its suffix, and its register
(30_encoding.md R72). -/
theorem encodedAs_of_wordXK_suffix (hword : encode i = wordXK op x kk) (hwf : i.wellFormed = true) :
    EncodedAs i (op.toNat * 4096 + kk.toNat + 256 * x.toNat) := by
  rw [Nat.add_right_comm]
  exact encodedAs_of_wordXK hword hwf

/-- What an instruction answers that writes the address register and advances; the address is the number `n`. -/
theorem advance_setI_answer (s : State) {w : Word} {n : Nat} (hw : w.toNat = n) :
    ∃ t, advance (s.setI w) = .next t ∧ t.i.toNat = n ∧ t.pc = s.pc + 2#16 ∧ t.result = .cont ∧
      Frame s t [] [.i] :=
  ⟨_, advance_next.2 rfl, hw, rfl, rfl, ((changes_setI s w).withPcResult _ _).frame⟩

/-- An address register plus a byte wraps modulo 65536 (48_timers_index_memory.md R203). -/
theorem toNat_add_byte16 (w : Word) (b : Byte) : (w + byte16 b).toNat = (w.toNat + b.toNat) % 65536 := by
  rw [BitVec.toNat_add, toNat_byte16]

/-- A byte masked by `kk` has no bit that is clear in `kk` (45_immediate_random.md R173). -/
theorem and_and_not_eq_zero (b kk : Byte) : (b &&& kk) &&& ~~~kk = 0 := by
  rw [BitVec.and_assoc, BitVec.and_not_self]
  exact BitVec.and_zero

/-- `Rand` writes the masked draw to `V[x]` in the state that counts the draw (45_immediate_random.md R173). -/
theorem exec_rand (x : Nibble) (kk : Byte) (s : State) :
    exec (.rand x kk) s = advance (s.draw8.2.setReg x (s.draw8.1 &&& kk)) := rfl

/-- Settles O40: each writes `V[x]` alone, the one the operand and the other the wrapped sum. -/
theorem loadAndAddImmediate : Obligations.LoadAndAddImmediate := by
  refine fun x kk s => ⟨?encLoad, ?encAdd, ?load, ?add⟩
  case encLoad => exact encodedAs_of_wordXK (op := 0x6#4) rfl rfl
  case encAdd => exact encodedAs_of_wordXK (op := 0x7#4) rfl rfl
  case load => exact advance_setReg_answer s x kk
  case add =>
    obtain ⟨t, hexec, hreg, hrest⟩ := advance_setReg_answer s x (s.reg x + kk)
    exact ⟨t, hexec, hreg ▸ BitVec.toNat_add _ _, hrest⟩

/-- Settles O41: each writes the address register alone, the one the operand and the other the wrapped sum. -/
theorem addressRegisterLoadAndAdd : Obligations.AddressRegisterLoadAndAdd := fun s =>
  ⟨fun nnn => ⟨encodedAs_of_wordA (op := 0xA#4) rfl rfl, advance_setI_answer s (toNat_addr16 nnn)⟩,
    fun x => ⟨encodedAs_of_wordXK_suffix (op := 0xF#4) (kk := 0x1E#8) rfl rfl,
      advance_setI_answer s (toNat_add_byte16 s.i (s.reg x))⟩⟩

/-- Settles O42, whatever byte is drawn: the draw writes its counter alone, and the masked byte goes to `V[x]`. -/
theorem randMasksTheDraw : Obligations.RandMasksTheDraw := by
  refine fun x kk s => ⟨encodedAs_of_wordXK (op := 0xC#4) rfl rfl, _, (exec_rand x kk s).trans (advance_next.2 rfl),
    ?draw, ?mask, rfl, rfl, rfl, ?frame⟩
  case draw => exact reg_setReg_same _ x _
  case mask => exact (congrArg (· &&& ~~~kk) (reg_setReg_same _ x _)).trans (and_and_not_eq_zero _ kk)
  case frame => exact (((changes_draw8 s).trans (changes_setReg _ x _)).withPcResult _ _).frame

end Sys2Proof.Machine
end

section
/-! The draw instruction (46_draw.md). -/

namespace Sys2Proof.Machine

variable {s t u : State} {x y n : Nibble} {r : Fin Config.fbH} {c : Fin Config.fbW}

/-! What a sprite covers. -/

/-- The pixel is covered by the sprite that `Draw(x, y, n)` reads in `s`. -/
abbrev State.DrawCovers (s : State) (x y n : Nibble) (r : Fin Config.fbH) (c : Fin Config.fbW) : Prop :=
  SpriteCovers s (s.dataAddr 0) (s.reg x) (s.reg y) n.toNat r c

/-- The rows that the sprite loop runs over cover the pixels the specification names (46_draw.md R180, R181). -/
theorem rowsCover_readBytes {a m : Nat} {x0 y0 : Byte} :
    RowsCover x0 y0 0 (s.readBytes a m) r c ↔ SpriteCovers s a x0 y0 m r c := by
  simp only [RowsCover, SpriteCovers, length_readBytes, Nat.zero_add]
  refine exists_congr fun row => and_congr_right fun hrow => ?_
  have hbyte : (s.readBytes a m).getD row 0 = s.readByte (a + row) := by
    rw [← List.getElem_eq_getD (h := by rwa [length_readBytes]), getElem_readBytes]
  simp only [hbyte, spriteBit, screenRow, screenCol, Fin.ext_iff]

/-- A sprite is given by the coordinates, `I` and memory. -/
theorem drawCovers_congr (hi : u.i = s.i) (hx : u.reg x = s.reg x) (hy : u.reg y = s.reg y)
    (hmem : ∀ a, u.readByte a = s.readByte a) : u.DrawCovers x y n r c ↔ s.DrawCovers x y n r c := by
  simp only [State.DrawCovers, SpriteCovers, State.dataAddr, hi, hx, hy, hmem]

/-! What `Draw` answers. -/

/-- The rows of the sprite lie inside memory; a sprite without rows always does (46_draw.md R180). -/
abbrev State.SpriteFits (s : State) (n : Nibble) : Prop := n = 0 ∨ s.dataAddr 0 + n.toNat ≤ Config.memSize

theorem sprite?_eq_some {bs : List Byte} :
    s.sprite? n = some bs ↔ s.SpriteFits n ∧ bs = s.readBytes (s.dataAddr 0) n.toNat := by
  unfold State.sprite?
  split
  next hn =>
    subst hn
    rw [Option.some_inj, eq_comm]
    exact (and_iff_right (.inl rfl)).symm
  next hn => exact memRead?_eq_some.trans (and_congr_left' (or_iff_right hn).symm)

/-- The framebuffer after the sprite of `Draw(x, y, n)`, and whether it met a pixel that was set. -/
def State.plotSprite (s : State) (x y n : Nibble) : Framebuffer × Bool :=
  plotRows (s.reg x) (s.reg y) 0 (s.readBytes (s.dataAddr 0) n.toNat) (s.fb, false)

/-- The state after a `Draw(x, y, n)` whose sprite fits. -/
def State.afterDraw (s : State) (x y n : Nibble) : State :=
  { { s with fb := (s.plotSprite x y n).1 }.setFlag (s.plotSprite x y n).2 with
    pc := s.pc + 2#16, result := .continueRedraw }

theorem exec_draw_next : exec (.draw x y n) s = .next t ↔ s.SpriteFits n ∧ t = s.afterDraw x y n := by
  by_cases hfit : s.SpriteFits n
  · have hsprite := sprite?_eq_some.2 ⟨hfit, rfl⟩
    simp only [exec, execDraw, hsprite, hfit, true_and]
    exact advanceRedraw_next
  · have hsprite : s.sprite? n = none :=
      Option.eq_none_iff_forall_ne_some.2 fun bs h => hfit (sprite?_eq_some.1 h).1
    simp [exec, execDraw, hsprite, hfit, faultMemory]

theorem plotSprite_spec (s : State) (x y n : Nibble) :
    (∀ r c, pixel (s.plotSprite x y n).1 r c ≠ pixel s.fb r c ↔ s.DrawCovers x y n r c) ∧
    ((s.plotSprite x y n).2 = true ↔ ∃ r c, s.DrawCovers x y n r c ∧ pixel s.fb r c = true) := by
  have hrows : (s.readBytes (s.dataAddr 0) n.toNat).length ≤ 32 := by
    rw [length_readBytes]
    exact n.isLt.le.trans (by decide)
  have h := plotRows_spec (s.reg x) (s.reg y) 0 _ (s.fb, false) hrows
  simp only [rowsCover_readBytes, Bool.false_eq_true, false_or] at h
  exact h

/-- `Draw` inverts the covered pixels (46_draw.md R181). -/
theorem pixel_afterDraw_of_covers (h : s.DrawCovers x y n r c) :
    pixel (s.afterDraw x y n).fb r c = !pixel s.fb r c :=
  Bool.eq_not.2 (((plotSprite_spec s x y n).1 r c).2 h)

theorem pixel_afterDraw_of_not_covers (h : ¬ s.DrawCovers x y n r c) :
    pixel (s.afterDraw x y n).fb r c = pixel s.fb r c :=
  not_not.1 (mt ((plotSprite_spec s x y n).1 r c).1 h)

theorem reg_flagReg_afterDraw (s : State) (x y n : Nibble) :
    (s.afterDraw x y n).reg flagReg = flagByte (s.plotSprite x y n).2 := reg_setReg_same _ flagReg _

theorem flagByte_eq_one {b : Bool} : flagByte b = 1 ↔ b = true := by cases b <;> decide

theorem flagByte_eq_zero {b : Bool} : flagByte b = 0 ↔ ¬ b = true := by cases b <;> decide

/-- The flag of `Draw` says whether a covered pixel was set (46_draw.md R182). -/
theorem flag_afterDraw_eq_one :
    (s.afterDraw x y n).reg flagReg = 1 ↔ ∃ r c, s.DrawCovers x y n r c ∧ pixel s.fb r c = true := by
  rw [reg_flagReg_afterDraw, flagByte_eq_one, (plotSprite_spec s x y n).2]

theorem flag_afterDraw_eq_zero :
    (s.afterDraw x y n).reg flagReg = 0 ↔ ¬ ∃ r c, s.DrawCovers x y n r c ∧ pixel s.fb r c = true := by
  rw [reg_flagReg_afterDraw, flagByte_eq_zero, (plotSprite_spec s x y n).2]

theorem afterDraw_frame (s : State) (x y n : Nibble) : Frame s (s.afterDraw x y n) [flagReg] [.fb] :=
  (((changes_fb s _).trans (changes_setReg _ flagReg _)).withPcResult _ _).frame

theorem encodedAs_draw (x y n : Nibble) :
    EncodedAs (.draw x y n) (0xD000 + 256 * x.toNat + 16 * y.toNat + n.toNat) :=
  ⟨by rw [encode, toNat_wordXYN, show (0xD : Nibble).toNat = 0xD from rfl]; omega, decode_encode rfl⟩

/-- Settles O43: the sprite fits, so `Draw` plots it. -/
theorem drawInvertsCoveredPixels : Obligations.DrawInvertsCoveredPixels := fun x y n s hfit =>
  ⟨encodedAs_draw x y n, s.afterDraw x y n, exec_draw_next.2 ⟨hfit, rfl⟩, fun _ _ => pixel_afterDraw_of_covers,
    fun _ _ => pixel_afterDraw_of_not_covers, flag_afterDraw_eq_one.2, flag_afterDraw_eq_zero.2, rfl, rfl,
    afterDraw_frame s x y n⟩

/-- A second `Draw` of the sprite inverts the covered pixels back (46_draw.md R183). -/
theorem afterDraw_fb_of_drawn (hcovers : ∀ r c, u.DrawCovers x y n r c ↔ s.DrawCovers x y n r c)
    (hfb : u.fb = (s.afterDraw x y n).fb) : (u.afterDraw x y n).fb = s.fb := by
  refine framebuffer_ext fun r c => ?_
  by_cases h : s.DrawCovers x y n r c
  · rw [pixel_afterDraw_of_covers ((hcovers r c).2 h), hfb, pixel_afterDraw_of_covers h, Bool.not_not]
  · rw [pixel_afterDraw_of_not_covers (mt (hcovers r c).1 h), hfb, pixel_afterDraw_of_not_covers h]

/-- Settles O44: the second `Draw` reads the sprite of the first, and a covered pixel it finds set was clear before. -/
theorem drawTwiceRestores : Obligations.DrawTwiceRestores := by
  intro x y n s t u hdraw hfb hi hx hy hmem
  obtain ⟨hfit, rfl⟩ := exec_draw_next.1 hdraw
  have hfit' : u.SpriteFits n := by rwa [State.SpriteFits, State.dataAddr, hi]
  have hcovers : ∀ r c, u.DrawCovers x y n r c ↔ s.DrawCovers x y n r c := fun r c => drawCovers_congr hi hx hy hmem
  refine ⟨u.afterDraw x y n, exec_draw_next.2 ⟨hfit', rfl⟩, afterDraw_fb_of_drawn hcovers hfb, ?_⟩
  refine flag_afterDraw_eq_one.trans (exists_congr fun r => exists_congr fun c => ?_)
  rw [hcovers r c]
  refine and_congr_right fun h => ?_
  rw [hfb, pixel_afterDraw_of_covers h, Bool.not_eq_true']

end Sys2Proof.Machine
end

section
/-! The key instructions `Skpr`, `Skup` and `Keyd` (47_keys.md). -/

namespace Sys2Proof.Machine

variable {s : State} {x : Nibble}

/-! The key array, read by a code that is known to be in range. -/

theorem keyAt?_fin (s : State) (k : Fin Config.nKeys) : s.keyAt? k.val = some s.key[k] :=
  keyAt?_eq_some.2 ⟨k.isLt, rfl⟩

theorem keyAt?_fin_eq_some_true {k : Fin Config.nKeys} : s.keyAt? k.val = some true ↔ s.key[k] = true := by
  rw [keyAt?_fin, Option.some_inj]

theorem keyAt?_fin_ne_some_true {k : Fin Config.nKeys} : s.keyAt? k.val ≠ some true ↔ s.key[k] = false := by
  rw [Ne, keyAt?_fin_eq_some_true, Bool.not_eq_true]

theorem leastKey?_eq_some_fin {k : Fin Config.nKeys} :
    s.leastKey? = some k.val ↔ s.key[k] = true ∧ ∀ j : Fin Config.nKeys, j < k → s.key[j] = false := by
  rw [leastKey?_eq_some, and_iff_right k.isLt, keyAt?_fin_eq_some_true]
  refine and_congr_right fun _ => ⟨fun h j hj => ?_, fun h j hj => ?_⟩
  · exact keyAt?_fin_ne_some_true.1 (h j.val hj)
  · exact keyAt?_fin_ne_some_true.2 (h ⟨j, hj.trans k.isLt⟩ hj)

theorem leastKey?_eq_none_fin : s.leastKey? = none ↔ ∀ k : Fin Config.nKeys, s.key[k] = false := by
  rw [leastKey?_eq_none, ← Fin.forall_iff (p := fun k => s.keyAt? k.val ≠ some true)]
  exact forall_congr' fun _ => keyAt?_fin_ne_some_true

/-! What each instruction does, by the key code or the least pressed key. -/

theorem exec_skpr_of_lt (h : (s.reg x).toNat < Config.nKeys) :
    exec (.skpr x) s = skipIf s.key[(s.reg x).toNat] s := by
  simp only [exec, execSkpr, keyAt?_eq_some.2 ⟨h, rfl⟩]

theorem exec_skup_of_lt (h : (s.reg x).toNat < Config.nKeys) :
    exec (.skup x) s = skipIf (!s.key[(s.reg x).toNat]) s := by
  simp only [exec, execSkup, keyAt?_eq_some.2 ⟨h, rfl⟩]

theorem exec_skpr_of_le (h : Config.nKeys ≤ (s.reg x).toNat) :
    exec (.skpr x) s = .fault (.keyIndexOutOfRange (s.reg x) s) := by
  simp only [exec, execSkpr, keyAt?_eq_none.2 h, faultKey]

theorem exec_skup_of_le (h : Config.nKeys ≤ (s.reg x).toNat) :
    exec (.skup x) s = .fault (.keyIndexOutOfRange (s.reg x) s) := by
  simp only [exec, execSkup, keyAt?_eq_none.2 h, faultKey]

theorem exec_keyd_of_some {k : Nat} (h : s.leastKey? = some k) :
    exec (.keyd x) s = advance (s.setReg x (BitVec.ofNat 8 k)) := by
  simp only [exec, execKeyd, h]

theorem exec_keyd_of_none (h : s.leastKey? = none) : exec (.keyd x) s = .next { s with result := .cont } := by
  simp only [exec, execKeyd, h, stay]

/-- What a skip on a test that fails answers. -/
theorem skipIf_not_answer (c : Bool) (s : State) :
    ∃ t, skipIf (!c) s = .next t ∧ t.pc = (if c = true then s.pc + 2#16 else s.pc + 4#16) ∧ t.result = .cont ∧
      Frame s t [] [] := by
  simpa only [Bool.not_eq_true', ← Bool.not_eq_true, ite_not] using skipIf_answer (!c) s

/-- A key code fits in a byte. -/
theorem toNat_byte_of_key (k : Fin Config.nKeys) : (BitVec.ofNat 8 k.val).toNat = k.val :=
  Nat.mod_eq_of_lt (k.isLt.trans (by decide))

/-- Settles O47: `Keyd` writes the least pressed code to `V[x]` alone, and without a pressed key writes the result
alone. -/
theorem keydWaitsThenStores : Obligations.KeydWaitsThenStores := by
  refine fun x s => ⟨encodedAs_of_wordXK_suffix (op := 0xF#4) (kk := 0x0A#8) rfl rfl, fun k hk hleast => ?pressed,
    fun hnone => ?waits⟩
  case pressed =>
    rw [exec_keyd_of_some (leastKey?_eq_some_fin.2 ⟨hk, hleast⟩)]
    obtain ⟨t, hexec, hreg, hrest⟩ := advance_setReg_answer s x (BitVec.ofNat 8 k.val)
    exact ⟨t, hexec, hreg ▸ toNat_byte_of_key k, hrest⟩
  case waits =>
    exact ⟨_, exec_keyd_of_none (leastKey?_eq_none_fin.2 hnone), rfl, rfl, frame_withResult s _⟩

/-- Settles O45: `Skpr` is a skip on the key's state, `Skup` on its negation. -/
theorem keySkips : Obligations.KeySkips := by
  refine fun x s h => ⟨?encSkpr, ?encSkup, ?skpr, ?skup⟩
  case encSkpr => exact encodedAs_of_wordXK_suffix (op := 0xE#4) (kk := 0x9E#8) rfl rfl
  case encSkup => exact encodedAs_of_wordXK_suffix (op := 0xE#4) (kk := 0xA1#8) rfl rfl
  case skpr => exact exec_skpr_of_lt h ▸ skipIf_answer _ s
  case skup => exact exec_skup_of_lt h ▸ skipIf_not_answer _ s

/-- Settles O46: no key has a code from 16 on. -/
theorem keyCodeOutOfRangeFaults : Obligations.KeyCodeOutOfRangeFaults := fun _ _ h =>
  ⟨exec_skpr_of_le h, exec_skup_of_le h⟩

end Sys2Proof.Machine
end

section
/-! Group 0xF but for `Keyd` and `Addi`: the delay counter, glyph addresses, decimal digits, and the registers stored to
memory and loaded from it (48_timers_index_memory.md). -/

namespace Sys2Proof.Machine

variable {s t : State} {x k : Nibble}

/-! Bytes written inside memory, read back. -/

theorem Memory.read_writeBytes_add {m : List Host.Cell} {a : Nat} {bs : List Byte} (hm : Memory.wf m = true)
    (h : a + bs.length ≤ Config.memSize) {j : Nat} (hj : j < bs.length) :
    Memory.read (Memory.writeBytes m a bs) (a + j) = bs[j] := by
  rw [Memory.read_writeBytes hm h, if_pos (Nat.le_add_right a j), Nat.add_sub_cancel_left,
    List.getD_eq_getElem _ _ hj]

theorem Memory.read_writeBytes_outside {m : List Host.Cell} {a c : Nat} {bs : List Byte} (hm : Memory.wf m = true)
    (h : a + bs.length ≤ Config.memSize) (hc : c < a ∨ a + bs.length ≤ c) :
    Memory.read (Memory.writeBytes m a bs) c = Memory.read m c := by
  rw [Memory.read_writeBytes hm h]
  obtain hc | hc := hc
  · rw [if_neg (Nat.not_le.2 hc)]
  · rw [if_pos ((Nat.le_add_right _ _).trans hc), List.getD_eq_default _ _ (Nat.le_sub_of_add_le' hc)]

/-! The delay counter and the glyphs. -/

/-- Settles O48: `Moved` writes `V[x]` alone, `Loadd` writes `DT` alone, and `Loads` only advances. -/
theorem delayCounterAndSound : Obligations.DelayCounterAndSound := by
  refine fun x s => ⟨?encMoved, ?encLoadd, ?encLoads, ?moved, ?loadd, ?loads⟩
  case encMoved => exact encodedAs_of_wordXK_suffix (op := 0xF#4) (kk := 0x07#8) rfl rfl
  case encLoadd => exact encodedAs_of_wordXK_suffix (op := 0xF#4) (kk := 0x15#8) rfl rfl
  case encLoads => exact encodedAs_of_wordXK_suffix (op := 0xF#4) (kk := 0x18#8) rfl rfl
  case moved => exact advance_setReg_answer s x s.dt
  case loadd => exact ⟨_, advance_next.2 rfl, rfl, rfl, rfl, ((changes_setDt s (s.reg x)).withPcResult _ _).frame⟩
  case loads => exact ⟨_, advance_next.2 rfl, rfl, rfl, ((Changes.refl s).withPcResult _ _).frame⟩

theorem exec_ldspr_of_lt (h : 15 < (s.reg x).toNat) :
    exec (.ldspr x) s = .next { s with result := .error (.spriteIndexOutOfRange (s.reg x)) } :=
  if_pos (maxGlyph_lt.2 h)

theorem exec_ldspr_of_le (h : (s.reg x).toNat ≤ 15) : exec (.ldspr x) s = advance (s.setI (glyphAddr (s.reg x))) :=
  if_neg (mt maxGlyph_lt.1 (Nat.not_lt.2 h))

/-- The address of a glyph does not wrap, whatever the byte (48_timers_index_memory.md R204). -/
theorem toNat_glyphAddr (g : Byte) : (glyphAddr g).toNat = 5 * g.toNat := by
  have := g.isLt
  simp only [glyphAddr, Config.fontBase, Config.glyphBytes, BitVec.toNat_ofNat]
  omega

/-- Settles O50, on both sides of the last glyph. -/
theorem ldsprPointsAtGlyph : Obligations.LdsprPointsAtGlyph := by
  refine fun x s => ⟨encodedAs_of_wordXK_suffix (op := 0xF#4) (kk := 0x29#8) rfl rfl, fun h => ?glyph, fun h => ?error⟩
  case glyph => exact exec_ldspr_of_le h ▸ advance_setI_answer s (toNat_glyphAddr (s.reg x))
  case error => exact ⟨_, exec_ldspr_of_lt h, rfl, rfl, frame_withResult s _⟩

/-! Decimal digits (48_timers_index_memory.md R205). -/

@[simp] theorem length_bcdDigits (b : Byte) : (bcdDigits b).length = 3 := rfl

/-- Each digit fits in a byte. -/
theorem toNat_bcdDigits (b : Byte) :
    (bcdDigits b)[0].toNat = b.toNat / 100 ∧ (bcdDigits b)[1].toNat = b.toNat / 10 % 10 ∧
      (bcdDigits b)[2].toNat = b.toNat % 10 := by
  have := b.isLt
  simp only [bcdDigits, List.getElem_cons_zero, List.getElem_cons_succ, BitVec.toNat_ofNat]
  omega

theorem exec_bcd_of_le (h : s.dataAddr 0 + 3 ≤ Config.memSize) :
    exec (.bcd x) s =
      advance { s with mem := Memory.writeBytes s.mem (s.dataAddr 0) (bcdDigits (s.reg x)) } := by
  have hw : s.memWrite? (s.dataAddr 0) (bcdDigits (s.reg x)) = some _ := memWrite?_eq_some.2 ⟨h, rfl⟩
  simp only [exec, execBcd, hw]

/-- Settles O51: the three bytes written at `I` are the digits. -/
theorem bcdStoresDigits : Obligations.BcdStoresDigits := by
  intro x s hm hlast
  have hfit : s.dataAddr 0 + (bcdDigits (s.reg x)).length ≤ Config.memSize := hlast
  obtain ⟨hundreds, tens, ones⟩ := toNat_bcdDigits (s.reg x)
  have hdigit (j : Nat) (hj : j < 3) := Memory.read_writeBytes_add hm hfit (j := j) hj
  refine ⟨encodedAs_of_wordXK_suffix (op := 0xF#4) (kk := 0x33#8) rfl rfl, _,
    (exec_bcd_of_le hfit).trans (advance_next.2 rfl), ?hundreds, ?tens, ?ones, fun a ha => ?outside, rfl, rfl,
    ((changes_mem s _).withPcResult _ _).frame⟩
  case hundreds => exact (congrArg BitVec.toNat (hdigit 0 (by decide))).trans hundreds
  case tens => exact (congrArg BitVec.toNat (hdigit 1 (by decide))).trans tens
  case ones => exact (congrArg BitVec.toNat (hdigit 2 (by decide))).trans ones
  case outside => exact Memory.read_writeBytes_outside hm hfit ha

/-! Registers stored and loaded (48_timers_index_memory.md R206 to R208). -/

theorem toNat_bumpI_i (s : State) (c : Bool) (x : Nibble) :
    (s.bumpI c (rangeLength x)).i.toNat =
      if c = true then (s.i.toNat + x.toNat + 1) % 65536 else s.i.toNat := by
  rw [bumpI_i, apply_ite BitVec.toNat, BitVec.toNat_add, BitVec.toNat_ofNat, Nat.add_mod_mod]
  rfl

theorem toNat_lt_rangeLength (h : k ≤ x) : k.toNat < rangeLength x := Nat.lt_succ_of_le (BitVec.le_def.1 h)

theorem rangeLength_le (x : Nibble) : rangeLength x ≤ 16 := x.isLt

theorem getElem_regList_toNat {n : Nat} (h : k.toNat < (s.regList n).length) : (s.regList n)[k.toNat] = s.reg k := by
  rw [getElem_regList, BitVec.ofNat_toNat, BitVec.setWidth_eq]

theorem exec_stor_of_lt (h : s.dataAddr x.toNat < Config.memSize) :
    exec (.stor x) s =
      advance (State.bumpI { s with mem := Memory.writeBytes s.mem (s.dataAddr 0) (s.regList (rangeLength x)) }
        Config.memxIIncrement (rangeLength x)) := by
  have hw : s.memWrite? (s.dataAddr 0) (s.regList (rangeLength x)) = some _ :=
    memWrite?_eq_some.2 ⟨by rwa [length_regList], rfl⟩
  simp only [exec, execStor, storWith, hw]

/-- A `Stor` that completes lies inside memory. -/
theorem dataAddr_lt_of_stor (h : exec (.stor x) s = .next t) : s.dataAddr x.toNat < Config.memSize := by
  obtain ⟨u, hw, -⟩ := exec_stor_next h
  obtain ⟨hfit, -⟩ := memWrite?_eq_some.1 hw
  rwa [length_regList] at hfit

/-- Settles O52: byte `k` of those written at `I` is `V[k]`. -/
theorem storStoresRegisters : Obligations.StorStoresRegisters := by
  intro x s hm hlast
  have hfit : s.dataAddr 0 + (s.regList (rangeLength x)).length ≤ Config.memSize := by rwa [length_regList]
  refine ⟨encodedAs_of_wordXK_suffix (op := 0xF#4) (kk := 0x55#8) rfl rfl, _,
    (exec_stor_of_lt hlast).trans (advance_next.2 rfl), fun k hk => ?stored, fun a ha => ?outside,
    toNat_bumpI_i _ _ x, rfl, rfl, ((changes_mem s _).bumpI.withPcResult _ _).frame⟩
  case stored =>
    have hlen : k.toNat < (s.regList (rangeLength x)).length := by simpa using toNat_lt_rangeLength hk
    exact (Memory.read_writeBytes_add hm hfit hlen).trans (getElem_regList_toNat hlen)
  case outside => exact Memory.read_writeBytes_outside hm hfit (by rwa [length_regList])

theorem exec_read_of_lt (h : s.dataAddr x.toNat < Config.memSize) :
    exec (.read x) s =
      advance ((s.fillRegs 0 (s.readBytes (s.dataAddr 0) (rangeLength x))).bumpI Config.memxIIncrement
        (rangeLength x)) := by
  have hr : s.memRead? (s.dataAddr 0) (rangeLength x) = some _ := memRead?_eq_some.2 ⟨h, rfl⟩
  simp only [exec, execRead, readWith, hr]

/-- The registers up to `x` hold the bytes loaded, those above what they held. -/
theorem reg_fillRegs_readBytes (s : State) (a : Nat) (x k : Nibble) :
    (s.fillRegs 0 (s.readBytes a (rangeLength x))).reg k = if k ≤ x then s.readByte (a + k.toNat) else s.reg k := by
  have hfit : 0 + (s.readBytes a (rangeLength x)).length ≤ 16 := by simpa using rangeLength_le x
  rw [reg_fillRegs s 0 _ hfit, if_pos (Nat.zero_le _), Nat.sub_zero]
  split
  next hk =>
    have hlen : k.toNat < (s.readBytes a (rangeLength x)).length := by simpa using toNat_lt_rangeLength hk
    rw [List.getD_eq_getElem _ _ hlen, getElem_readBytes]
  next hk => exact List.getD_eq_default _ _ (by simpa [rangeLength, BitVec.lt_def] using hk)

/-- Settles O53: register `k` of those filled is byte `I + k`. -/
theorem readLoadsRegisters : Obligations.ReadLoadsRegisters := by
  intro x s hlast
  have hreg := reg_fillRegs_readBytes s (s.dataAddr 0) x
  refine ⟨encodedAs_of_wordXK_suffix (op := 0xF#4) (kk := 0x65#8) rfl rfl, _,
    (exec_read_of_lt hlast).trans (advance_next.2 rfl), fun k hk => ?loaded, fun k hk => ?above, ?i, ?pc, rfl,
    ((changes_fillRegs s x (length_readBytes s _ _)).bumpI.withPcResult _ _).frame⟩
  case loaded => exact (hreg k).trans (if_pos hk)
  case above => exact (hreg k).trans (if_neg (BitVec.not_le.2 hk))
  case i => exact (toNat_bumpI_i _ _ x).trans (by rw [fillRegs_i])
  case pc => exact congrArg (· + 2#16) (fillRegs_pc s 0 _)

/-- Settles O54: the bytes the `Read` loads are those the `Stor` wrote. -/
theorem readAfterStor : Obligations.ReadAfterStor := by
  intro x s t u hm hstor hi hmem
  have haddr (j : Nat) : u.dataAddr j = s.dataAddr j := by rw [State.dataAddr, hi, State.dataAddr]
  have hlast : s.dataAddr x.toNat < 4096 := dataAddr_lt_of_stor hstor
  obtain ⟨-, t', hstor', hstored, -⟩ := storStoresRegisters x s hm hlast
  obtain rfl : t = t' := Host.Outcome.next.inj (hstor.symm.trans hstor')
  obtain ⟨-, v, hread, hloaded, -⟩ := readLoadsRegisters x u (by rwa [haddr])
  refine ⟨v, hread, fun k hk => ?_⟩
  calc v.reg k = u.readByte (s.dataAddr k.toNat) := haddr k.toNat ▸ hloaded k hk
    _ = t.readByte (s.dataAddr k.toNat) := by rw [State.readByte, hmem, State.readByte]
    _ = s.reg k := hstored k hk

end Sys2Proof.Machine
end

section
/-! Errors and faults of a step: what stands at `pc` when a step fails, and what a failing step leaves
(60_exceptions.md R220 to R227). -/

namespace Sys2Proof.Machine

variable {i : Instr} {s t : State} {e : EngineError}

/-! The errors of the source. -/

/-- What at `pc` makes the execute or the decode phase end in the error (60_exceptions.md R220, E1 to E4). -/
def State.Raises (s : State) : EngineError → Prop
  | .decodeError w => w = s.wordAtPc ∧ decode w = .error (.unrecognizedSuffix w)
  | .returnFromEmptyStack => decode s.wordAtPc = .ok .rts ∧ s.stack = []
  | .spriteIndexOutOfRange g => ∃ x, decode s.wordAtPc = .ok (.ldspr x) ∧ g = s.reg x ∧ 15 < g.toNat
  | .unimplementedSysCall nnn => decode s.wordAtPc = .ok (.sys nnn) ∧ nnn ≠ 0

/-- The error leaves the ticked state (60_exceptions.md R226). -/
theorem step_of_raises (hc : s.CanFetch) (h : s.Raises e) :
    step s = .next { s.tick s.nextNow with result := .error e } := by
  cases e with
  | decodeError w =>
    obtain ⟨rfl, hd⟩ := h
    exact step_of_decode_error hc hd
  | returnFromEmptyStack =>
    obtain ⟨hd, hs⟩ := h
    exact (step_of_decode_ok hc hd).trans (exec_rts_of_nil hs)
  | spriteIndexOutOfRange g =>
    obtain ⟨x, hd, rfl, hg⟩ := h
    exact (step_of_decode_ok hc hd).trans (exec_ldspr_of_lt hg)
  | unimplementedSysCall nnn =>
    obtain ⟨hd, hne⟩ := h
    exact (step_of_decode_ok hc hd).trans (exec_sys_of_ne_zero hne _)

/-- Only three instructions have an error as their result. -/
theorem raises_of_resultOf (hd : decode s.wordAtPc = .ok i) (h : resultOf i s = .error e) : s.Raises e := by
  cases i with
  | sys nnn =>
    simp only [resultOf] at h
    split at h <;> cases h
    next hne => exact ⟨hd, hne⟩
  | rts =>
    simp only [resultOf] at h
    split at h <;> cases h
    next hs => exact ⟨hd, hs⟩
  | ldspr x =>
    simp only [resultOf] at h
    split at h <;> cases h
    next hg => exact ⟨x, hd, rfl, maxGlyph_lt.1 hg⟩
  | jump nnn | call nnn | jumpI nnn =>
    simp only [resultOf] at h
    split at h <;> cases h
  | _ => cases h

theorem raises_of_step (h : step s = .next t) (he : t.result = .error e) : s.CanFetch ∧ s.Raises e := by
  obtain ⟨-, hs⟩ | ⟨-, -, hs⟩ | ⟨hc, i, hd, hs⟩ | ⟨hc, hd, hs⟩ := step_cases s <;> rw [hs] at h
  · cases h; cases he
  · cases h
  · exact ⟨hc, raises_of_resultOf (s := s.tick s.nextNow) hd ((exec_result h).symm.trans he)⟩
  · cases h; cases he; exact ⟨hc, rfl, hd⟩

/-- A step that returns an error leaves the ticked state with that result. -/
theorem step_error_eq (h : step s = .next t) (he : t.result = .error e) :
    t = { s.tick s.nextNow with result := .error e } := by
  obtain ⟨hc, hr⟩ := raises_of_step h he
  exact Host.Outcome.next.inj (h.symm.trans (step_of_raises hc hr))

/-! The faults of the model. -/

/-- The instruction at `pc` makes an access at `I` that leaves memory (60_exceptions.md R220, E5). -/
def State.AccessOutside (s : State) : Prop :=
  (∃ x y n, decode s.wordAtPc = .ok (.draw x y n) ∧ n ≠ 0 ∧ 4096 < s.i.toNat + n.toNat) ∨
  (∃ x, decode s.wordAtPc = .ok (.bcd x) ∧ 4096 < s.i.toNat + 3) ∨
  (∃ x, decode s.wordAtPc = .ok (.stor x) ∧ 4096 < s.i.toNat + x.toNat + 1) ∨
  (∃ x, decode s.wordAtPc = .ok (.read x) ∧ 4096 < s.i.toNat + x.toNat + 1)

/-- The instruction at `pc` reads the key of a code above 15 (60_exceptions.md R220, E6). -/
def State.KeyOutside (s : State) (k : Byte) : Prop :=
  ∃ x, (decode s.wordAtPc = .ok (.skpr x) ∨ decode s.wordAtPc = .ok (.skup x)) ∧ k = s.reg x ∧ 15 < k.toNat

theorem step_of_accessOutside (hc : s.CanFetch) (h : s.AccessOutside) :
    step s = .fault (.memoryOutOfRange s.i (s.tick s.nextNow)) := by
  have outside (x y n : Nibble) := accessOutsideFaults x y n (s.tick s.nextNow)
  obtain ⟨x, y, n, hd, hn, h⟩ | ⟨x, hd, h⟩ | ⟨x, hd, h⟩ | ⟨x, hd, h⟩ := h <;> rw [step_of_decode_ok hc hd]
  · obtain ⟨draw, -, -⟩ := outside x y n
    exact draw hn h
  · obtain ⟨-, bcd, -⟩ := outside x 0 0
    exact bcd h
  · obtain ⟨-, -, storRead⟩ := outside x 0 0
    exact (storRead h).1
  · obtain ⟨-, -, storRead⟩ := outside x 0 0
    exact (storRead h).2

theorem step_of_keyOutside {k : Byte} (hc : s.CanFetch) (h : s.KeyOutside k) :
    step s = .fault (.keyIndexOutOfRange k (s.tick s.nextNow)) := by
  obtain ⟨x, hd, rfl, hk⟩ := h
  have outside := keyCodeOutOfRangeFaults x (s.tick s.nextNow) hk
  obtain hd | hd := hd <;> rw [step_of_decode_ok hc hd]
  · exact outside.1
  · exact outside.2

/-- What at `pc` makes the execute phase end in the fault. -/
def State.ExecFaults (s : State) : Fault → Prop
  | .memoryOutOfRange addr _ => addr = s.i ∧ s.AccessOutside
  | .keyIndexOutOfRange k _ => s.KeyOutside k

theorem execFaults_of_exec {f : Fault} (hd : decode s.wordAtPc = .ok i) (h : exec i s = .fault f) :
    s.ExecFaults f := by
  cases i with
  | draw x y n =>
    simp only [exec, execDraw] at h
    split at h <;> cases h
    next hn => exact ⟨rfl, .inl ⟨x, y, n, hd, sprite?_eq_none.1 hn⟩⟩
  | bcd x =>
    simp only [exec, execBcd] at h
    split at h <;> cases h
    next hn => exact ⟨rfl, .inr (.inl ⟨x, hd, memWrite?_eq_none.1 hn⟩)⟩
  | stor x =>
    simp only [exec, execStor, storWith] at h
    split at h <;> cases h
    next hn =>
      have hout := memWrite?_eq_none.1 hn
      rw [length_regList] at hout
      exact ⟨rfl, .inr (.inr (.inl ⟨x, hd, hout⟩))⟩
  | read x =>
    simp only [exec, execRead, readWith] at h
    split at h <;> cases h
    next hn =>
      have hout := memRead?_eq_none.1 hn
      exact ⟨rfl, .inr (.inr (.inr ⟨x, hd, hout⟩))⟩
  | skpr x =>
    simp only [exec, execSkpr] at h
    split at h <;> cases h
    next hn => exact ⟨x, .inl hd, rfl, keyAt?_eq_none.1 hn⟩
  | skup x =>
    simp only [exec, execSkup] at h
    split at h <;> cases h
    next hn => exact ⟨x, .inr hd, rfl, keyAt?_eq_none.1 hn⟩
  | jump nnn | call nnn | jumpI nnn => exact absurd h jumpOrLoop_ne_fault
  | sys nnn | rts | keyd x | ldspr x =>
    simp only [exec, execSys, execRts, execKeyd, execLdspr] at h
    split at h <;> cases h
  | _ => cases h

/-- A step that ends in a fault: the fetch leaves memory, or the instruction at `pc` faults. -/
theorem step_fault_cases {f : Fault} (h : step s = .fault f) :
    (s.paused = false ∧ 4096 < s.pc.toNat + 2 ∧ f = .memoryOutOfRange s.pc (s.tick s.nextNow)) ∨
    (s.CanFetch ∧ s.ExecFaults f) := by
  obtain ⟨-, hs⟩ | ⟨hp, hpc, hs⟩ | ⟨hc, i, hd, hs⟩ | ⟨-, -, hs⟩ := step_cases s <;> rw [hs] at h
  · cases h
  · exact .inl ⟨hp, hpc, (Host.Outcome.fault.inj h).symm⟩
  · have hf := execFaults_of_exec (s := s.tick s.nextNow) hd h
    exact .inr ⟨hc, hf⟩
  · cases h

/-- Where the fault of an access that leaves memory comes from: the fetch, or the instruction at `pc`. -/
theorem step_memoryOutOfRange_cases {addr : Word} (h : step s = .fault (.memoryOutOfRange addr t)) :
    s.paused = false ∧ ((addr = s.pc ∧ 4096 < s.pc.toNat + 2) ∨ (addr = s.i ∧ s.CanFetch ∧ s.AccessOutside)) := by
  obtain ⟨hp, hpc, hf⟩ | ⟨hc, haddr, hout⟩ := step_fault_cases h
  · cases hf; exact ⟨hp, .inl ⟨rfl, hpc⟩⟩
  · exact ⟨hc.1, .inr ⟨haddr, hc, hout⟩⟩

theorem keyOutside_of_step {k : Byte} (h : step s = .fault (.keyIndexOutOfRange k t)) :
    s.CanFetch ∧ s.KeyOutside k := by
  obtain ⟨-, -, hf⟩ | hk := step_fault_cases h
  · cases hf
  · exact hk

/-! No refusals. -/

theorem jumpOrLoop_ne_refused {target : Word} {taken : State} {r : Refusal} :
    jumpOrLoop target taken s ≠ .refused r := by
  unfold jumpOrLoop
  split <;> exact nofun

theorem exec_ne_refused (i : Instr) (s : State) (r : Refusal) : exec i s ≠ .refused r := by
  intro h
  cases i with
  | jump nnn | call nnn | jumpI nnn => exact jumpOrLoop_ne_refused h
  | sys nnn | rts | keyd x | ldspr x | draw x y n | skpr x | skup x | bcd x | stor x | read x =>
    simp only [exec, execSys, execRts, execKeyd, execLdspr, execDraw, execSkpr, execSkup, execBcd, execStor, storWith,
      execRead, readWith] at h
    split at h <;> cases h
  | _ => cases h

theorem step_ne_refused (s : State) (r : Refusal) : step s ≠ .refused r := by
  obtain ⟨-, hs⟩ | ⟨-, -, hs⟩ | ⟨-, i, -, hs⟩ | ⟨-, -, hs⟩ := step_cases s <;> rw [hs]
  · exact nofun
  · exact nofun
  · exact exec_ne_refused i _ r
  · exact nofun

/-! What a failing step leaves, and that it fails again. -/

/-- Settles O12: the error is the result of the ticked state. -/
theorem errorStepKeepsState : Obligations.ErrorStepKeepsState := by
  intro s t e h he
  obtain rfl := step_error_eq h he
  exact ⟨rfl, rfl, rfl, rfl, (changes_tick_withResult s _).frame⟩

/-- Settles O13: every fault carries the ticked state, and its cause names the address or the key code. -/
theorem faultStepKeepsState : Obligations.FaultStepKeepsState := by
  refine fun s u => ⟨fun addr h => ⟨step_fault_after h, ?addr⟩, fun k h => ⟨step_fault_after h, ?code⟩⟩
  case addr =>
    obtain ⟨-, hcause⟩ := step_memoryOutOfRange_cases h
    exact hcause.imp And.left And.left
  case code =>
    obtain ⟨-, x, -, -, hk⟩ := keyOutside_of_step h
    exact hk

/-- Settles O14: the failing step leaves all that its error or fault is decided by. -/
theorem failingStepFailsAgain : Obligations.FailingStepFailsAgain := by
  refine fun s t => ⟨fun e h he => ?error, fun addr h => ?memory, fun k h => ?key⟩
  case error =>
    obtain ⟨hc, hr⟩ := raises_of_step h he
    obtain rfl := step_error_eq h he
    exact ⟨_, step_of_raises (s := { s.tick s.nextNow with result := .error e }) hc hr, rfl⟩
  case memory =>
    obtain rfl : t = s.tick s.nextNow := step_fault_after h
    obtain ⟨hp, ⟨rfl, hpc⟩ | ⟨rfl, hc, hout⟩⟩ := step_memoryOutOfRange_cases h
    · exact ⟨_, step_of_fetch_outside (s := s.tick s.nextNow) hp hpc⟩
    · exact ⟨_, step_of_accessOutside (s := s.tick s.nextNow) hc hout⟩
  case key =>
    obtain rfl : t = s.tick s.nextNow := step_fault_after h
    obtain ⟨hc, hk⟩ := keyOutside_of_step h
    exact ⟨_, step_of_keyOutside (s := s.tick s.nextNow) hc hk⟩

/-- Settles O15: the causes of the errors and the faults, and no refusal. -/
theorem errorPriority : Obligations.ErrorPriority := fun s _ =>
  ⟨fun _ => raises_of_step, fun _ => step_memoryOutOfRange_cases, fun _ => keyOutside_of_step, step_ne_refused s⟩

end Sys2Proof.Machine
end

section
/-! Creation, reset by the Host and the rate controller (60_exceptions.md R234, R235; 70_reset_and_hazards.md R250 to
R255). -/

namespace Sys2Proof.Machine

variable {c s : State} {rom : List Byte} {now : Nat}

/-! The image after creation (10_state.md R32). -/

theorem read_image (h : rom.length ≤ maxRomLength) (a : Nat) :
    Memory.read (Memory.image rom) a =
      if 0x200 ≤ a then rom.getD (a - 0x200) (Memory.unlisted a) else Memory.unlisted a :=
  Memory.read_writeBytes rfl (Nat.add_le_of_le_sub' (by decide) h) a

theorem unlisted_of_lt {a : Nat} (h : a < Config.font.length) : Memory.unlisted a = Config.font[a] :=
  List.getD_eq_getElem _ _ h

theorem unlisted_of_le {a : Nat} (h : Config.font.length ≤ a) : Memory.unlisted a = 0x00#8 :=
  List.getD_eq_default _ _ h

theorem read_image_rom (h : rom.length ≤ maxRomLength) {j : Nat} (hj : j < rom.length) :
    Memory.read (Memory.image rom) (0x200 + j) = rom[j] := by
  rw [read_image h, if_pos (Nat.le_add_right _ _), Nat.add_sub_cancel_left, List.getD_eq_getElem _ _ hj]

/-- Outside the ROM the image is that of the empty ROM. -/
theorem read_image_outside (h : rom.length ≤ maxRomLength) {a : Nat} (ha : a < 0x200 ∨ 0x200 + rom.length ≤ a) :
    Memory.read (Memory.image rom) a = Memory.unlisted a := by
  rw [read_image h]
  split
  next hle => exact List.getD_eq_default _ _ (by omega)
  next => rfl

theorem create_of_lt (h : maxRomLength < rom.length) : create rom now = .error (.romTooLong rom.length) :=
  if_neg (Nat.not_le.2 h)

/-- Settles O57: the ROM lies above the font, and all but memory, ROM and times is as in `State.reset`. -/
theorem createBuildsImage : Obligations.CreateBuildsImage := by
  refine fun rom now => ⟨create_of_lt, fun hrom => ⟨_, create_eq_ok.2 ⟨hrom, rfl⟩, fun j hj => ?rom, fun k hk => ?font,
    fun a hfont ha => ?zero, rfl, rfl, rfl, rfl, rfl, rfl, rfl, reg_reset, pixel_blankScreen, key_reset⟩⟩
  case rom => exact read_image_rom hrom hj
  case font =>
    have hlow : k < 0x200 := hk.trans (by decide)
    exact (read_image_outside hrom (.inl hlow)).trans (unlisted_of_lt hk)
  case zero => exact (read_image_outside hrom ha).trans (unlisted_of_le hfont)

/-- Settles O58: both states are `State.reset` but for memory, which both build from the same ROM, and the pieces that
reset leaves. -/
theorem hostResetRebuilds : Obligations.HostResetRebuilds := by
  rintro rom now c s hc rfl
  obtain ⟨-, rfl⟩ := create_eq_ok.1 hc
  exact ⟨fun x => ⟨reg_reset x, reg_reset x⟩, rfl, rfl, rfl, rfl, pixel_blankScreen, key_reset, fun _ => rfl, rfl, rfl,
    rfl, rfl, rfl, rfl, rfl, rfl, rfl, rfl⟩

/-! The rate controller (60_exceptions.md R234, R235). -/

/-- When the sleep of `pace` ends. -/
def State.paceEnd (s : State) (rate now late : Nat) : Nat := now + (period rate - (now - s.boundary)) + late

theorem paceAt_of_pos {rate : Nat} (h : 0 < rate) (now late : Nat) (s : State) :
    paceAt rate now late s =
      .ok (⟨now - s.boundary, s.paceEnd rate now late - s.boundary⟩,
        { s with
          boundary := s.paceEnd rate now late, clock := s.paceEnd rate now late, clockReads := s.clockReads + 2 }) :=
  if_neg h.ne'

/-- A sleep for the rest of the period ends at the end of the period, or at once where that has passed. -/
theorem paceEnd_eq_max {rate late : Nat} (h : s.boundary ≤ now) :
    s.paceEnd rate now late = max now (s.boundary + period rate) + late := by
  rw [State.paceEnd]
  omega

theorem changes_pace (s : State) (boundary clock reads : Nat) :
    Changes s { s with boundary := boundary, clock := clock, clockReads := reads } []
      [.boundary, .clock, .clockReads] :=
  .of_v_eq rfl (fun p hp => by cases p <;> simp_all [Part.Same, State.readByte]) fun _ => rfl

/-- Settles O59: the sleep ends at `paceEnd`, for `RATE` = 500 called at 0.5 ms at 2 ms. -/
theorem paceSleepsTheRemainder : Obligations.PaceSleepsTheRemainder := by
  refine ⟨fun rate now late s hrate hnow => ?sleeps, fun _ _ _ => rfl, fun s hs => ?rate500⟩
  case sleeps =>
    exact ⟨_, _, paceAt_of_pos hrate now late s, rfl, rfl, paceEnd_eq_max hnow, rfl, rfl,
      (changes_pace s _ _ _).frame⟩
  case rate500 =>
    have hend : s.paceEnd 500 500000 0 = 2000000 := by rw [State.paceEnd, hs]; rfl
    exact ⟨_, _, paceAt_of_pos (by decide) 500000 0 s, by rw [hs], by rw [hend, hs], hend⟩

end Sys2Proof.Machine
end
